-- ==== Sys2Proof/Word.lean ====
section
/-! DEFINITION. The word types of SPHC, by the widths of spec/10_state.md R20 and spec/20_memory.md R51. -/

namespace Sys2Proof

/-- One ROM word, one row, the eight output lines: 8 bits (R51, R72, R73). -/
abbrev Byte := BitVec 8

/-- A switch pair, high side in bit 1, low side in bit 0, 1 = closed (R71); also a MODE2 code (R74). -/
abbrev Pair := BitVec 2

/-- A step-table ROM address, the table-select bit above `POS` (R51). -/
abbrev RomAddr := BitVec 4

/-- The Sequence Position (R22). -/
abbrev Pos := BitVec 3

end Sys2Proof
end

