-- ==== Sys2Proof/Syntax.lean ====
section
/-! DEFINITION. The operations of SPHC: one constructor of `Instr` per row of spec/opcode_table.json, and the
enumerations of spec/30_encoding.md (micro-operations, Output States, halt causes, formats). -/

namespace Sys2Proof

/-- The nine values of register `CTL` (R21); codes 9 to 15 of CTL4 are not states of the machine. -/
inductive Ctl where
  | sInit | sFetch | sBreak | sDead | sMake | sAdv | sWent | sSpin | sHalt
deriving DecidableEq, Repr

/-- The halt causes of register `CAUSE` (R76); all four codes of the register are named. -/
inductive Cause where
  | none | badMode | badSpeed | stop
deriving DecidableEq, Repr

/-- The Output States of a phase (R71): the letters Z, L, H of R80. -/
inductive OutputState where
  | floating | driveLow | driveHigh
deriving DecidableEq, Repr

/-- The three legal states of a coil, `+`, `-` and `0` in the notation of R80 (R52 (b), R53). -/
inductive CoilState where
  | plus | minus | off
deriving DecidableEq, Repr

/-- The formats in which a word of the opcode table can stand (R70), one for each place a word is decoded from:
register `CTL`, a field of `ROW`, a ROM word, port `mode`, port `tick`, port `rst`. -/
inductive Format where
  | ctl4 | cmd2 | row8 | mode2 | tickPort | rstPort
deriving DecidableEq, Repr

/-- The number of bits of a word of the format (R70, R90, R170). -/
def Format.width : Format → Nat
  | .ctl4 => 4
  | .cmd2 => 2
  | .row8 => 8
  | .mode2 => 2
  | .tickPort => 1
  | .rstPort => 1

/-- The instructions: one constructor per row of spec/opcode_table.json (R81). -/
inductive Instr where
  /-- `S_INIT`, R130. -/
  | sInit
  /-- `S_FETCH`, R131. -/
  | sFetch
  /-- `S_BREAK`, R110. -/
  | sBreak
  /-- `S_DEAD`, R111. -/
  | sDead
  /-- `S_MAKE`, R112. -/
  | sMake
  /-- `S_ADV`, R132. -/
  | sAdv
  /-- `S_WENT`, R92. -/
  | sWent
  /-- `S_SPIN`, R93. -/
  | sSpin
  /-- `S_HALT`, R133. -/
  | sHalt
  /-- `FLOAT`, R113. -/
  | float
  /-- `DLOW`, R114. -/
  | dLow
  /-- `DHIGH`, R115. -/
  | dHigh
  /-- `ROW`, R72: the commands of phases 2B, 2A, 1B, 1A, in the order of the pattern `ddccbbaa`. -/
  | row (dd cc bb aa : Pair)
  /-- `TICKINC`, R90. -/
  | tickInc
  /-- `RESET`, R170. -/
  | reset
  /-- `MODE_FULL`, R74. -/
  | modeFull
  /-- `MODE_HALF`, R74. -/
  | modeHalf
deriving DecidableEq, Repr

/-- The format of the words that stand for an instruction (the column "format" of the opcode table). -/
def Instr.format : Instr → Format
  | .sInit => .ctl4
  | .sFetch => .ctl4
  | .sBreak => .ctl4
  | .sDead => .ctl4
  | .sMake => .ctl4
  | .sAdv => .ctl4
  | .sWent => .ctl4
  | .sSpin => .ctl4
  | .sHalt => .ctl4
  | .float => .cmd2
  | .dLow => .cmd2
  | .dHigh => .cmd2
  | .row _ _ _ _ => .row8
  | .tickInc => .tickPort
  | .reset => .rstPort
  | .modeFull => .mode2
  | .modeHalf => .mode2

end Sys2Proof
end

