-- ==== Sys2Proof/WellFormed.lean ====
section
/-! DEFINITION. The check of an instruction: a row's fields are commands (spec/30_encoding.md R72, R78 (a)). No other
instruction carries an operand. The checks of a configuration (R5, R52) are in Machine/Admission.lean. -/

namespace Sys2Proof

/-- A CMD2 field is a command: `0b11`, both switches closed, is reserved (R71). -/
def Pair.isCommand (c : Pair) : Bool := c != 3#2

/-- The instruction is one the spec gives an encoding: each of a row's four fields is a command (R72). -/
def Instr.wellFormed : Instr → Bool
  | .row dd cc bb aa => Pair.isCommand dd && Pair.isCommand cc && Pair.isCommand bb && Pair.isCommand aa
  | .sInit => true
  | .sFetch => true
  | .sBreak => true
  | .sDead => true
  | .sMake => true
  | .sAdv => true
  | .sWent => true
  | .sSpin => true
  | .sHalt => true
  | .float => true
  | .dLow => true
  | .dHigh => true
  | .tickInc => true
  | .reset => true
  | .modeFull => true
  | .modeHalf => true

end Sys2Proof
end

