-- ==== Sys2Proof/Decode.lean ====
section
/-! DEFINITION. The codes of spec/30_encoding.md (R71 to R76), the decoder, total on every byte of every format and
rejecting by name, the encoder after it, and the host's `decodeTableWord`. -/

namespace Sys2Proof

/-! ### Codes of the enumerations -/

/-- CTL4 (R75). -/
def Ctl.code : Ctl → BitVec 4
  | .sInit => 0#4
  | .sFetch => 1#4
  | .sBreak => 2#4
  | .sDead => 3#4
  | .sMake => 4#4
  | .sAdv => 5#4
  | .sWent => 6#4
  | .sSpin => 7#4
  | .sHalt => 8#4

/-- The state of `CTL` with a CTL4 code; none for `0x9` to `0xF` (R75, R78 (d)). -/
def Ctl.ofCode (c : BitVec 4) : Option Ctl :=
  match c.toNat with
  | 0 => some .sInit
  | 1 => some .sFetch
  | 2 => some .sBreak
  | 3 => some .sDead
  | 4 => some .sMake
  | 5 => some .sAdv
  | 6 => some .sWent
  | 7 => some .sSpin
  | 8 => some .sHalt
  | _ => none

/-- CMD2 (R71): the code is the target switch pair. -/
def OutputState.pair : OutputState → Pair
  | .floating => 0b00#2
  | .driveLow => 0b01#2
  | .driveHigh => 0b10#2

/-- The Output State a CMD2 code commands; none for the reserved `0b11` (R71). -/
def OutputState.ofPair (c : Pair) : Option OutputState :=
  match c.toNat with
  | 0 => some .floating
  | 1 => some .driveLow
  | 2 => some .driveHigh
  | _ => none

/-- CAUSE2 (R76). -/
def Cause.code : Cause → BitVec 2
  | .none => 0b00#2
  | .badMode => 0b01#2
  | .badSpeed => 0b10#2
  | .stop => 0b11#2

/-- MODE2 of the full-step mode (R74). -/
def modeFullCode : BitVec 2 := 0b01#2

/-- MODE2 of the half-step mode (R74). -/
def modeHalfCode : BitVec 2 := 0b10#2

/-! ### The decoder -/

/-- Why a word is refused. -/
inductive DecodeError where
  /-- The word has a 1 above the format's width (R70). -/
  | tooWide
  /-- A CTL4 code `0x9` to `0xF`: no state of the machine (R78 (d)). -/
  | notAState
  /-- A CMD2 field `0b11`: both switches closed (R78 (a)). -/
  | reservedCommand
  /-- A MODE2 code `0b00` or `0b11` (R78 (b)). -/
  | invalidMode
  /-- A port bit 0: it selects nothing (R90, R170). -/
  | notSelected
deriving DecidableEq, Repr

/-- The micro-operation of a CTL4 code (R75). -/
def decodeCtl4 : Nat → Except DecodeError Instr
  | 0 => .ok .sInit
  | 1 => .ok .sFetch
  | 2 => .ok .sBreak
  | 3 => .ok .sDead
  | 4 => .ok .sMake
  | 5 => .ok .sAdv
  | 6 => .ok .sWent
  | 7 => .ok .sSpin
  | 8 => .ok .sHalt
  | _ => .error .notAState

/-- The phase command of a CMD2 code (R71). -/
def decodeCmd2 : Nat → Except DecodeError Instr
  | 0 => .ok .float
  | 1 => .ok .dLow
  | 2 => .ok .dHigh
  | _ => .error .reservedCommand

/-- The row of a ROW8 word: field p is at bits `2p+1 : 2p` (R72). -/
def decodeRow8 (w : Byte) : Except DecodeError Instr :=
  let i := Instr.row (w.extractLsb' 6 2) (w.extractLsb' 4 2) (w.extractLsb' 2 2) (w.extractLsb' 0 2)
  if i.wellFormed then .ok i else .error .reservedCommand

/-- The step mode of a MODE2 code (R74). -/
def decodeMode2 : Nat → Except DecodeError Instr
  | 1 => .ok .modeFull
  | 2 => .ok .modeHalf
  | _ => .error .invalidMode

/-- The instruction a word stands for in a format (R70 to R75, R90, R170). A word is decoded in the format of the place
it stands in, so the format is the decoder's first argument (log 13). -/
def decode (f : Format) (w : Byte) : Except DecodeError Instr :=
  if 2 ^ f.width ≤ w.toNat then .error .tooWide
  else
    match f with
    | .ctl4 => decodeCtl4 w.toNat
    | .cmd2 => decodeCmd2 w.toNat
    | .row8 => decodeRow8 w
    | .mode2 => decodeMode2 w.toNat
    | .tickPort => if w = 1#8 then .ok .tickInc else .error .notSelected
    | .rstPort => if w = 1#8 then .ok .reset else .error .notSelected

/-! ### The encoder -/

/-- The word of an instruction in its own format, in the low bits of a byte (R71, R72, R74, R75, R90, R170). -/
def encode : Instr → Byte
  | .sInit => 0x0#8
  | .sFetch => 0x1#8
  | .sBreak => 0x2#8
  | .sDead => 0x3#8
  | .sMake => 0x4#8
  | .sAdv => 0x5#8
  | .sWent => 0x6#8
  | .sSpin => 0x7#8
  | .sHalt => 0x8#8
  | .float => 0b00#8
  | .dLow => 0b01#8
  | .dHigh => 0b10#8
  | .row dd cc bb aa => dd ++ cc ++ bb ++ aa
  | .tickInc => 1#8
  | .reset => 1#8
  | .modeFull => 0b01#8
  | .modeHalf => 0b10#8

/-! ### The host's question -/

/-- The format and the word that the host's pair (bits of the row, bits of the word) stands for. The opcode table holds
words of six formats and its numbering does not say which, so this is the model's reading (log 13): a row of no bits is
the ROW container; up to 1 bit a tick; up to 2 bits a command; up to 8 bits a micro-operation where the word is a CTL4
code and a row otherwise. The table's reader turned the LEN column of the two MODE2 rows into bits 4 and 8, which are
no bits of the word (R74): `0x11` and every wider word are read as MODE2 with that bit struck out. -/
def tableFormat (nbits w : Nat) : Format × Nat :=
  if nbits = 0 then (.row8, w)
  else if nbits = 1 then (.tickPort, w)
  else if nbits = 2 then (.cmd2, w)
  else if nbits ≤ 8 then
    if w < 9 then (.ctl4, w) else if w = 0x11 then (.mode2, 1) else (.row8, w)
  else (.mode2, if w = 0x102 then 2 else w)

/-- The instruction the decoder reads from a word of the opcode table (log 13). -/
def decodeTableWord (nbits w : Nat) : Option Instr :=
  let (f, v) := tableFormat nbits w
  if v < 256 then
    match decode f (BitVec.ofNat 8 v) with
    | .ok i => some i
    | .error _ => none
  else none

end Sys2Proof
end

