-- ==== Sys2Proof/Config.lean ====
section
/-! DEFINITION. What is fixed for one machine (spec/00_scope.md R5), the input ports (spec/10_state.md R32), and the
FREE VALUES of the model: opaque constants of which nothing can be proved but that they have a value. -/

namespace Sys2Proof

/-- The step-table ROM as (address, word) pairs, in the canonical form of Machine/Memory.lean. -/
abbrev Memory := List Host.Cell

/-- The parameters of R5 that a rule reads. `F_TICK` and `F_CLK` are read by no rule (log 17). `dt` has `dtw` bits, so
`DT < 2^DT_W` holds by its type; the other conditions are `Config.admitted` (Machine/Admission.lean). -/
structure Config where
  /-- `W`: the width of `TICK`, `T0`, `SPEED_L` and of the ports `speed` and `now`. -/
  w : Nat
  /-- `DT_W`: the width of `DTC`. -/
  dtw : Nat
  /-- `DT`: the number of S_DEAD steps between an S_BREAK and its S_MAKE. -/
  dt : BitVec dtw
  /-- `TABLE_HALF` and `TABLE_FULL`, as the contents of the ROM (R51). -/
  rom : Memory
deriving DecidableEq, Repr

/-- The values the spec takes for the parameters (the last column of R5); the tables of R53 and R54 are what an unlisted
address of the ROM reads as, so nothing is listed. -/
def Config.default : Config := { w := 32, dtw := 8, dt := 1#8, rom := [] }

/-- The values of the six input ports at one step (R32). -/
structure Ports (w : Nat) where
  /-- Synchronous reset. -/
  rst : Bool
  /-- One timebase tick happens in this step. -/
  tick : Bool
  /-- Step mode, MODE2. -/
  mode : BitVec 2
  /-- Inter-step delay in ticks. -/
  speed : BitVec w
  /-- Direction: false = forward, true = reverse. -/
  dir : Bool
  /-- Emergency stop request. -/
  stop : Bool
deriving DecidableEq, Repr, Inhabited

/-- FREE VALUE: what the host presents on the input ports at step `k` when the state lists no input for it. The host
may supply any input sequence (R9, R11; log 1). -/
opaque Config.hostPorts (w : Nat) : Nat → Ports w

/-- FREE VALUE: the contents of the unpopulated ROM addresses 12 to 15 (R51, R56, U9; log 4). -/
opaque Config.unpopulatedWord : RomAddr → Byte

/-- FREE VALUE: `LEN(MODE_L)` for a value of `MODE_L` that is no step mode, which the spec does not state
(R77; log 5). -/
opaque Config.unstatedLen : BitVec 2 → BitVec 4

end Sys2Proof
end

