-- ==== Sys2Proof/Machine/State.lean ====
section
/-! DEFINITION. The state of SPHC: the eleven registers of spec/10_state.md R20, the configuration the machine was built
with, and the model's own record of the host's inputs; the reset state (spec/70_reset_and_hazards.md R171). -/

namespace Sys2Proof.Machine

/-- The eleven registers of R20, and nothing else, for a machine with `W = w` and `DT_W = dtw`. -/
structure Regs (w dtw : Nat) where
  /-- `CTL`, the micro-operation the next step executes (R21). -/
  ctl : Ctl
  /-- `POS`, the Sequence Position (R22). -/
  pos : Pos
  /-- `MODE_L`, the latched step mode (R23). -/
  modeL : BitVec 2
  /-- `ROW`, the row being applied (R24). -/
  row : Byte
  /-- `PH`, the phase being updated (R25). -/
  ph : BitVec 2
  /-- `DTC`, the dead-time down-counter (R26). -/
  dtc : BitVec dtw
  /-- `OUT`, the eight switch-command bits (R27). -/
  out : Byte
  /-- `TICK`, the Timebase Tick Count (R28). -/
  tick : BitVec w
  /-- `T0`, the tick count at wait entry (R29). -/
  t0 : BitVec w
  /-- `SPEED_L`, the duration of the wait in progress (R30). -/
  speedL : BitVec w
  /-- `CAUSE`, why the block halted (R31). -/
  cause : Cause
deriving DecidableEq, Repr

/-- The reset value of every register (R170, R171). -/
def Regs.reset (w dtw : Nat) : Regs w dtw :=
  { ctl := .sInit, pos := 0#3, modeL := 0b00#2, row := 0x00#8, ph := 0#2, dtc := 0#dtw, out := 0x00#8,
    tick := 0#w, t0 := 0#w, speedL := 0#w, cause := .none }

/-- The whole state. Plain data: no field is a function. -/
structure State where
  /-- The configuration the machine was built with (R5); no step changes it (log 2). -/
  cfg : Config
  /-- The registers (R20). -/
  regs : Regs cfg.w cfg.dtw
  /-- The MODEL's own field: the input values the host has chosen for the coming steps, this step's first (log 1). -/
  inputs : List (Ports cfg.w)
  /-- The MODEL's own field: how many steps have been taken, the argument of the free inputs (log 1). -/
  k : Nat
deriving DecidableEq, Repr

/-- The machine right after a reset step (R171), built with the spec's own parameters (R5), with nothing chosen for the
host's inputs. -/
def State.reset : State :=
  { cfg := Config.default, regs := Regs.reset 32 8, inputs := [], k := 0 }

/-- Faults: none. The spec knows no condition that stops the machine: its three halt causes (R150) are next states, in
which `CTL` is S_HALT. The type is empty, which is safe: no run ends in it. -/
inductive Fault where
deriving DecidableEq, Repr

/-- Refusals: the model declines to say what happens. -/
inductive Refusal where
  /-- Raised by an arm of `exec` whose instruction has no meaning yet. Safe. -/
  | notModelled (mnemonic : String)
  /-- Raised by S_MAKE and by ROW on a CMD2 field `0b11`, to which the spec gives no behaviour and forbids inventing one
  (R119, R78 (a), U1; log 6). Safe. -/
  | reservedCommand
  /-- Raised by `step` when the state's parameters or tables break R5 or R52: they are no configuration of SPHC
  (R52, R175; log 7). Safe. -/
  | notAConfiguration
  /-- Raised by `step` if `CTL` decoded to no micro-operation, a CTL4 code 9 to 15 (R78 (d), U8; log 8). The enumerated
  `CTL` has no such value, so no step raises it. Safe. -/
  | noSuchMicroOperation
deriving DecidableEq, Repr

end Sys2Proof.Machine
end

