-- ==== Sys2Proof/Machine/Memory.lean ====
section
/-! DEFINITION. The step-table ROM (spec/20_memory.md): its default contents, the read, the write by which a build
supplies other tables, and the canonical form. -/

namespace Sys2Proof

/-- `TABLE_HALF` as this spec takes it (R53). -/
def tableHalfDefault : List Byte := [0x66#8, 0x60#8, 0x69#8, 0x09#8, 0x99#8, 0x90#8, 0x96#8, 0x06#8]

/-- `TABLE_FULL` as this spec takes it (R54). -/
def tableFullDefault : List Byte := [0x66#8, 0x69#8, 0x99#8, 0x96#8]

/-- The number of populated ROM addresses, 0 to 11 (R51). -/
def romPopulated : Nat := 12

/-- What an unlisted populated address reads as: the tables of R53 and R54 at the places of R51 (log 3). -/
def tableDefault (a : Nat) : Byte := (tableHalfDefault ++ tableFullDefault).getD a 0x00#8

/-- The listed word at an address, if there is one. -/
def Memory.find? : Memory → Nat → Option Byte
  | [], _ => none
  | (x, b) :: rest, a => if x = a then some b else Memory.find? rest a

/-- `MemRead(a, 1)` (R56): one ROM word; pure, it never faults. Addresses 12 to 15 read as free values (U9, log 4). -/
def Memory.read (m : Memory) (a : RomAddr) : Byte :=
  if a.toNat < romPopulated then (Memory.find? m a.toNat).getD (tableDefault a.toNat)
  else Config.unpopulatedWord a

/-- List a word at an address, in address order. -/
def Memory.insert : Memory → Nat → Byte → Memory
  | [], a, b => [(a, b)]
  | (x, c) :: rest, a, b =>
    if a < x then (a, b) :: (x, c) :: rest
    else if a = x then (a, b) :: rest
    else (x, c) :: Memory.insert rest a b

/-- Unlist an address. -/
def Memory.erase : Memory → Nat → Memory
  | [], _ => []
  | (x, c) :: rest, a => if x = a then rest else (x, c) :: Memory.erase rest a

/-- Put a word into the ROM when the hardware is BUILT, the way `TABLE_HALF` and `TABLE_FULL` are supplied (R52, R175).
It is no operation of the machine: no instruction writes the ROM (R59). An unpopulated address holds nothing (R51). -/
def Memory.write (m : Memory) (a : RomAddr) (b : Byte) : Memory :=
  if a.toNat < romPopulated then
    if b = tableDefault a.toNat then Memory.erase m a.toNat else Memory.insert m a.toNat b
  else m

/-- The listed addresses rise strictly from `lo` on, are populated, and hold other words than an unlisted address. -/
def Memory.wfFrom : Nat → Memory → Bool
  | _, [] => true
  | lo, (a, b) :: rest => decide (lo ≤ a) && decide (a < romPopulated) && (b != tableDefault a) && Memory.wfFrom (a + 1) rest

/-- The ONE canonical form of a ROM: equal contents are equal lists. -/
def Memory.wf (m : Memory) : Bool := Memory.wfFrom 0 m

end Sys2Proof
end

