-- ==== Sys2Proof/Machine/Operands.lean ====
section
/-! DEFINITION. How each operand is formed (spec/30_encoding.md R77): pairs of a row or of the lines, the ROM address,
the table length, the position's advance, the wait's elapsed count; and the text notation of R80. None is sign-extended,
scaled or shifted. -/

namespace Sys2Proof.Machine

/-! ### Pairs: `v[2p+1 : 2p]` (R27, R72, R77) -/

/-- The field of phase `p` in a row or in the lines. -/
def pairOf (v : Byte) (p : BitVec 2) : Pair := v.extractLsb' (2 * p.toNat) 2

/-- `v` with the field of phase `p` replaced; the other six bits keep their values (R121). -/
def putPair (v : Byte) (p : BitVec 2) (c : Pair) : Byte :=
  (v &&& ~~~(0b11#8 <<< (2 * p.toNat))) ||| (c.setWidth 8 <<< (2 * p.toNat))

/-- `HS[p]`, bit `2p+1` of the lines: the high-side switch of phase `p` is commanded closed (R27, R73). -/
def highSide (out : Byte) (p : BitVec 2) : Bool := out.getLsbD (2 * p.toNat + 1)

/-- `LS[p]`, bit `2p` of the lines: the low-side switch of phase `p` is commanded closed (R27, R73). -/
def lowSide (out : Byte) (p : BitVec 2) : Bool := out.getLsbD (2 * p.toNat)

/-! ### The step mode and the row address -/

/-- The MODE2 code is a step mode (R74). -/
def legalMode (m : BitVec 2) : Bool := m == modeFullCode || m == modeHalfCode

/-- `LEN(m)`: 4 for FULL, 8 for HALF; for any other value the spec states none and it is a free value
(R74, R77; log 5). Four bits, so that `POS + 1 == LEN` is compared without truncation (R132). -/
def tableLen (m : BitVec 2) : BitVec 4 :=
  if m = modeFullCode then 4#4 else if m = modeHalfCode then 8#4 else Config.unstatedLen m

/-- The ROM address `{tsel, POS}` with `tsel = MODE_L[0]` (R51, R77; log 15). -/
def romAddr (m : BitVec 2) (pos : Pos) : RomAddr := m.extractLsb' 0 1 ++ pos

/-- The position after an advance, forward (`dir = false`) or in reverse, with the wrap at `LEN` (R132). -/
def nextPos (dir : Bool) (m : BitVec 2) (pos : Pos) : Pos :=
  if dir then
    if pos = 0#3 then (tableLen m - 1#4).setWidth 3 else pos - 1#3
  else
    if pos.setWidth 4 + 1#4 = tableLen m then 0#3 else pos + 1#3

/-! ### Coils (R52 (b), R53, R80) -/

end Sys2Proof.Machine

namespace Sys2Proof

/-- The four bits of a coil's state, terminal B above terminal A: `+` is (A high, B low), `-` is (A low, B high), `0` is
both floating (R80). -/
def CoilState.bits : CoilState → BitVec 4
  | .plus => OutputState.driveLow.pair ++ OutputState.driveHigh.pair
  | .minus => OutputState.driveHigh.pair ++ OutputState.driveLow.pair
  | .off => OutputState.floating.pair ++ OutputState.floating.pair

/-- The state of a coil from its four bits; none for a pair that R52 (b) does not admit. -/
def CoilState.ofBits (b : BitVec 4) : Option CoilState :=
  if b = CoilState.bits .plus then some .plus
  else if b = CoilState.bits .minus then some .minus
  else if b = CoilState.bits .off then some .off
  else none

end Sys2Proof

namespace Sys2Proof.Machine

/-- Coil 1, phases 1A and 1B: bits 3..0 of a row (R72). -/
def coil1 (row : Byte) : BitVec 4 := row.extractLsb' 0 4

/-- Coil 2, phases 2A and 2B: bits 7..4 of a row (R72). -/
def coil2 (row : Byte) : BitVec 4 := row.extractLsb' 4 4

/-- The row written `ROW 1A=<a> 1B=<b> 2A=<c> 2B=<d>` in R80. -/
def rowOfStates (a b c d : OutputState) : Byte := d.pair ++ c.pair ++ b.pair ++ a.pair

/-- The row written `COILS <c1> <c2>` in R80, the only pseudo-form. -/
def rowOfCoils (c1 c2 : CoilState) : Byte := CoilState.bits c2 ++ CoilState.bits c1

end Sys2Proof.Machine
end

