-- ==== Sys2Proof/Machine/Admission.lean ====
section
/-! DEFINITION. Which parameters are a configuration of SPHC (spec/00_scope.md R5, spec/20_memory.md R52,
spec/70_reset_and_hazards.md R175). Anything else is refused (log 7). -/

namespace Sys2Proof.Machine

/-- R52 (a): every field of the row is a command. -/
def rowFieldsLegal (row : Byte) : Bool :=
  Pair.isCommand (pairOf row 0#2) && Pair.isCommand (pairOf row 1#2) && Pair.isCommand (pairOf row 2#2) &&
    Pair.isCommand (pairOf row 3#2)

/-- R52 (b): each coil is in one of the states (H, L), (L, H), (Z, Z). -/
def rowCoilsLegal (row : Byte) : Bool :=
  (CoilState.ofBits (coil1 row)).isSome && (CoilState.ofBits (coil2 row)).isSome

/-- A coil's four bits drive current through it. -/
def energised (b : BitVec 4) : Bool := b != CoilState.bits .off

/-- R52 (c), and the even rows of R52 (d): both coils are energised. -/
def rowTwoCoil (row : Byte) : Bool := energised (coil1 row) && energised (coil2 row)

/-- The odd rows of R52 (d): exactly one coil is energised. -/
def rowOneCoil (row : Byte) : Bool := energised (coil1 row) != energised (coil2 row)

/-- A row `TABLE_FULL` may hold (R52). -/
def fullRowAdmitted (row : Byte) : Bool := rowFieldsLegal row && rowCoilsLegal row && rowTwoCoil row

/-- A row `TABLE_HALF` may hold at a position (R52). -/
def halfRowAdmitted (pos : Nat) (row : Byte) : Bool :=
  rowFieldsLegal row && rowCoilsLegal row && (if pos % 2 = 0 then rowTwoCoil row else rowOneCoil row)

/-- `TABLE_HALF[i]` (R51). -/
def tableHalf (rom : Memory) (i : Nat) : Byte := Memory.read rom (BitVec.ofNat 4 i)

/-- `TABLE_FULL[i]` (R51). -/
def tableFull (rom : Memory) (i : Nat) : Byte := Memory.read rom (BitVec.ofNat 4 (8 + i))

/-- R52 (a) to (d) of both tables. -/
def tablesAdmitted (rom : Memory) : Bool :=
  (List.range 8).all (fun i => halfRowAdmitted i (tableHalf rom i)) &&
    (List.range 4).all (fun i => fullRowAdmitted (tableFull rom i))

end Sys2Proof.Machine

namespace Sys2Proof

/-- The parameters are a configuration of SPHC: `W >= 1`, `DT_W >= 1`, `DT >= 1` (R5; `DT < 2^DT_W` by its type), and
well-formed tables (R52). -/
def Config.admitted (c : Config) : Bool :=
  decide (1 ≤ c.w) && decide (1 ≤ c.dtw) && decide (1 ≤ c.dt.toNat) && Machine.tablesAdmitted c.rom

end Sys2Proof
end

