-- ==== Sys2Proof/Machine/Flags.lean ====
section
/-! DEFINITION. The conditions and the arithmetic of the timebase (spec/40_timebase.md R90, R93, R95), for every width.
SPHC has no arithmetic flags (R31); its only conditions are the ones here and the tests written out in the meanings. -/

namespace Sys2Proof.Machine

/-- `TICK +_W 1`: wraps from `2^W - 1` to 0, with no flag (R90, R95). -/
def tickSucc {w : Nat} (tick : BitVec w) : BitVec w := tick + 1#w

/-- `TICK -_W T0`: the ticks counted since wait entry, modulo `2^W` (R95). -/
def elapsed {w : Nat} (tick t0 : BitVec w) : BitVec w := tick - t0

/-- The exit test of S_SPIN, `(TICK -_W T0) >= SPEED_L`, unsigned (R93). -/
def expired {w : Nat} (tick t0 speedL : BitVec w) : Bool := decide (speedL.toNat ≤ (elapsed tick t0).toNat)

/-- More than one step of dead time is left, `DTC > 1` (R111). -/
def moreDead {dtw : Nat} (dtc : BitVec dtw) : Bool := decide (1 < dtc.toNat)

end Sys2Proof.Machine
end

