-- ==== Sys2Proof/Machine/Ops.lean ====
section
/-! DEFINITION. The operations the meanings are made of: the writes of registers, the halt entry (SPHC's only
"exception", spec/60_exceptions.md R155; there is no return from it, R156), the phase-pair write, the input ports of a
step. -/

namespace Sys2Proof.Machine

/-! ### Writes of registers -/

/-- `CTL <- c`, SPHC's control transfer (R8). -/
def Regs.goto {w dtw : Nat} (r : Regs w dtw) (c : Ctl) : Regs w dtw := { r with ctl := c }

/-- `POS <- v`. -/
def Regs.setPos {w dtw : Nat} (r : Regs w dtw) (v : Pos) : Regs w dtw := { r with pos := v }

/-- `MODE_L <- m`. -/
def Regs.latchMode {w dtw : Nat} (r : Regs w dtw) (m : BitVec 2) : Regs w dtw := { r with modeL := m }

/-- `ROW <- v`. -/
def Regs.loadRow {w dtw : Nat} (r : Regs w dtw) (v : Byte) : Regs w dtw := { r with row := v }

/-- `PH <- p`. -/
def Regs.setPhase {w dtw : Nat} (r : Regs w dtw) (p : BitVec 2) : Regs w dtw := { r with ph := p }

/-- `DTC <- n`. -/
def Regs.setDead {w dtw : Nat} (r : Regs w dtw) (n : BitVec dtw) : Regs w dtw := { r with dtc := n }

/-- `PAIR[PH] <- c`: both switch bits of the phase being updated, in one step; the other six lines keep their values
(R27, R110, R112, R121). -/
def Regs.writePair {w dtw : Nat} (r : Regs w dtw) (c : Pair) : Regs w dtw := { r with out := putPair r.out r.ph c }

/-- `TICK <- TICK +_W 1` (R90). -/
def Regs.countTick {w dtw : Nat} (r : Regs w dtw) : Regs w dtw := { r with tick := tickSucc r.tick }

/-- `T0 <- TICK; SPEED_L <- d`: the latches of wait entry (R92). -/
def Regs.captureWait {w dtw : Nat} (r : Regs w dtw) (d : BitVec w) : Regs w dtw := { r with t0 := r.tick, speedL := d }

/-- HALT ENTRY, `raise <Cause>` (R155): exactly three writes; nothing is saved and nothing else changes. -/
def Regs.haltEntry {w dtw : Nat} (r : Regs w dtw) (c : Cause) : Regs w dtw :=
  { r with out := 0x00#8, cause := c, ctl := .sHalt }

/-! ### Ports -/

/-- The input values of the step `j` steps after this one (R7): the host's listed choice, or a free value (log 1). -/
def State.portsIn (s : State) (j : Nat) : Ports s.cfg.w :=
  (s.inputs[j]?).getD (Config.hostPorts s.cfg.w (s.k + j))

/-- The input values of this step (R7, R32). -/
def State.ports (s : State) : Ports s.cfg.w := s.portsIn 0

/-- The output ports (R33). -/
structure OutPorts (w : Nat) where
  /-- The eight switch lines. -/
  out : Byte
  /-- The Sequence Position. -/
  pos : Pos
  /-- The tick count, `now() -> Tick` (R91). -/
  now : BitVec w
  /-- 1 exactly when `CTL == S_HALT`. -/
  halted : Bool
  /-- The CAUSE2 code. -/
  cause : BitVec 2
deriving DecidableEq, Repr

/-- What the host observes at this step boundary (R11, R33, R91): wires from registers. -/
def State.outPorts (s : State) : OutPorts s.cfg.w :=
  { out := s.regs.out, pos := s.regs.pos, now := s.regs.tick, halted := s.regs.ctl == .sHalt, cause := s.regs.cause.code }

/-! ### Putting a step together -/

/-- The state with other registers; configuration and inputs are no registers. -/
@[reducible] def State.withRegs (s : State) (r : Regs s.cfg.w s.cfg.dtw) : State := { s with regs := r }

/-- The step boundary: the next step sees the next input values (R7; log 1). -/
@[reducible] def State.advance (s : State) : State := { s with inputs := s.inputs.drop 1, k := s.k + 1 }

/-- The state `n` step boundaries after `s`, with the registers `r`: the configuration is the same, `n` input values are
used up. -/
@[reducible] def State.after (s : State) (n : Nat) (r : Regs s.cfg.w s.cfg.dtw) : State :=
  { cfg := s.cfg, regs := r, inputs := s.inputs.drop n, k := s.k + n }

/-- Run `f` on the next state of an outcome; a fault or a refusal stays. -/
def andThen (o : Host.Outcome State Fault Refusal) (f : State → Host.Outcome State Fault Refusal) :
    Host.Outcome State Fault Refusal :=
  match o with
  | .next s => f s
  | .fault e => .fault e
  | .refused e => .refused e

end Sys2Proof.Machine
end

