-- ==== Sys2Proof/Machine/Containers.lean ====
section
/-! DEFINITION. The opcode-table rows that are words the sequencer takes in: the ROW8 container, which S_FETCH loads
(spec/30_encoding.md R72, spec/10_state.md R24), and the two legal MODE2 codes, which S_INIT latches (R74, R23). -/

namespace Sys2Proof.Machine

/-- ROW (R72): the row becomes the row being applied, `ROW <- {dd, cc, bb, aa}`, as S_FETCH does with it (R131; log 9).
A row with a field `0b11` is refused (R78 (a); log 6). -/
def execRow (dd cc bb aa : Pair) (s : State) : Host.Outcome State Fault Refusal :=
  if Pair.isCommand dd && Pair.isCommand cc && Pair.isCommand bb && Pair.isCommand aa then
    .next (s.withRegs (s.regs.loadRow (dd ++ cc ++ bb ++ aa)))
  else .refused .reservedCommand

/-- MODE_FULL (R74): the full-step mode is latched, as S_INIT does with it (R130; log 10). -/
def execModeFull (s : State) : Host.Outcome State Fault Refusal :=
  .next (s.withRegs (s.regs.latchMode modeFullCode))

/-- MODE_HALF (R74): the half-step mode is latched, as S_INIT does with it (R130; log 10). -/
def execModeHalf (s : State) : Host.Outcome State Fault Refusal :=
  .next (s.withRegs (s.regs.latchMode modeHalfCode))

end Sys2Proof.Machine
end

