-- ==== Sys2Proof/Machine/PhaseDriver.lean ====
section
/-! DEFINITION. The phase driver, spec/41_phase_driver.md: the micro-operations S_BREAK, S_DEAD, S_MAKE and the three
commands FLOAT, DLOW, DHIGH that parameterise S_MAKE. -/

namespace Sys2Proof.Machine

/-- The phase command FLOAT (R113): both switches of phase `PH` open (log 11). -/
def execFloat (s : State) : Host.Outcome State Fault Refusal :=
  .next (s.withRegs (s.regs.writePair (OutputState.pair .floating)))

/-- The phase command DLOW (R114): high side open, low side closed (log 11). -/
def execDLow (s : State) : Host.Outcome State Fault Refusal :=
  .next (s.withRegs (s.regs.writePair (OutputState.pair .driveLow)))

/-- The phase command DHIGH (R115): high side closed, low side open (log 11). -/
def execDHigh (s : State) : Host.Outcome State Fault Refusal :=
  .next (s.withRegs (s.regs.writePair (OutputState.pair .driveHigh)))

/-- S_BREAK (R110): both switches of phase `PH` open, whatever they were; the dead time is loaded. -/
def execSBreak (s : State) : Host.Outcome State Fault Refusal :=
  .next (s.withRegs (((s.regs.writePair 0b00#2).setDead s.cfg.dt).goto .sDead))

/-- S_DEAD (R111): one step of dead time. -/
def execSDead (s : State) : Host.Outcome State Fault Refusal :=
  if moreDead s.regs.dtc then .next (s.withRegs ((s.regs.setDead (s.regs.dtc - 1#s.cfg.dtw)).goto .sDead))
  else .next (s.withRegs ((s.regs.setDead 0#s.cfg.dtw).goto .sMake))

/-- S_MAKE (R112): the command in the row's field of phase `PH` is applied; then the next phase, or S_ADV after the
fourth. To a field `0b11` the spec gives no behaviour and forbids one (R119; log 6). -/
def execSMake (s : State) : Host.Outcome State Fault Refusal :=
  match OutputState.ofPair (pairOf s.regs.row s.regs.ph) with
  | none => .refused .reservedCommand
  | some c =>
    if s.regs.ph = 3#2 then .next (s.withRegs ((s.regs.writePair c.pair).goto .sAdv))
    else .next (s.withRegs (((s.regs.writePair c.pair).setPhase (s.regs.ph + 1#2)).goto .sBreak))

end Sys2Proof.Machine
end

