-- ==== Sys2Proof/Machine/Reset.lean ====
section
/-! DEFINITION. Reset, spec/70_reset_and_hazards.md R170. -/

namespace Sys2Proof.Machine

/-- RESET (R170): every register takes its reset value, from any state. The configuration is not state and stays
(R20, R165). -/
def execReset (s : State) : Host.Outcome State Fault Refusal :=
  .next (s.withRegs (Regs.reset s.cfg.w s.cfg.dtw))

end Sys2Proof.Machine
end

