-- ==== Sys2Proof/Machine/Sequencer.lean ====
section
/-! DEFINITION. The micro-operations of the step sequencer, spec/42_step_sequencer.md: S_INIT, S_FETCH, S_ADV, S_HALT. -/

namespace Sys2Proof.Machine

/-- S_INIT, the start-up check (R130): BADMODE is tested before BADSPEED (R154); a raise leaves `MODE_L` as it is. -/
def execSInit (s : State) : Host.Outcome State Fault Refusal :=
  if legalMode s.ports.mode then
    if s.ports.speed = 0#s.cfg.w then .next (s.withRegs (s.regs.haltEntry .badSpeed))
    else .next (s.withRegs ((s.regs.latchMode s.ports.mode).goto .sFetch))
  else .next (s.withRegs (s.regs.haltEntry .badMode))

/-- S_FETCH, the row lookup (R131): `ROW <- MemRead({MODE_L[0], POS}, 1)`, `PH <- 0`. -/
def execSFetch (s : State) : Host.Outcome State Fault Refusal :=
  .next (s.withRegs
    (((s.regs.loadRow (s.cfg.rom.read (romAddr s.regs.modeL s.regs.pos))).setPhase 0#2).goto .sBreak))

/-- S_ADV, the position advance (R132), in the direction sampled in this step. -/
def execSAdv (s : State) : Host.Outcome State Fault Refusal :=
  .next (s.withRegs ((s.regs.setPos (nextPos s.ports.dir s.regs.modeL s.regs.pos)).goto .sWent))

/-- S_HALT, the terminal state (R133): nothing but `CTL`, with its own value, is written. -/
def execSHalt (s : State) : Host.Outcome State Fault Refusal :=
  .next (s.withRegs (s.regs.goto .sHalt))

end Sys2Proof.Machine
end

