-- ==== Sys2Proof/Machine/Timebase.lean ====
section
/-! DEFINITION. The timebase, spec/40_timebase.md: the tick increment TICKINC and the micro-operations S_WENT, S_SPIN. -/

namespace Sys2Proof.Machine

/-- TICKINC, the tick increment (R90). It is selected by `tick == 1` in a step with `rst == 0` (Machine/Step.lean). -/
def execTickInc (s : State) : Host.Outcome State Fault Refusal :=
  .next (s.withRegs s.regs.countTick)

/-- S_WENT, the wait entry (R92): BADSPEED on a zero duration, else `TICK` and `speed` are latched. -/
def execSWent (s : State) : Host.Outcome State Fault Refusal :=
  if s.ports.speed = 0#s.cfg.w then .next (s.withRegs (s.regs.haltEntry .badSpeed))
  else .next (s.withRegs ((s.regs.captureWait s.ports.speed).goto .sSpin))

/-- S_SPIN, one iteration of the busy-wait (R93): STOP is tested before the elapsed time (R154). -/
def execSSpin (s : State) : Host.Outcome State Fault Refusal :=
  if s.ports.stop then .next (s.withRegs (s.regs.haltEntry .stop))
  else if expired s.regs.tick s.regs.t0 s.regs.speedL then .next (s.withRegs (s.regs.goto .sFetch))
  else .next (s.withRegs (s.regs.goto .sSpin))

end Sys2Proof.Machine
end

