-- ==== Sys2Proof/Machine/Dispatch.lean ====
section
/-! DEFINITION. The meaning of every instruction, one arm a row of spec/opcode_table.json. -/

namespace Sys2Proof.Machine

def exec (i : Instr) (s : State) : Host.Outcome State Fault Refusal :=
  match i with
  | .sInit => Sys2Proof.Machine.execSInit s
  | .sFetch => Sys2Proof.Machine.execSFetch s
  | .sBreak => Sys2Proof.Machine.execSBreak s
  | .sDead => Sys2Proof.Machine.execSDead s
  | .sMake => Sys2Proof.Machine.execSMake s
  | .sAdv => Sys2Proof.Machine.execSAdv s
  | .sWent => Sys2Proof.Machine.execSWent s
  | .sSpin => Sys2Proof.Machine.execSSpin s
  | .sHalt => Sys2Proof.Machine.execSHalt s
  | .float => Sys2Proof.Machine.execFloat s
  | .dLow => Sys2Proof.Machine.execDLow s
  | .dHigh => Sys2Proof.Machine.execDHigh s
  | .row dd cc bb aa => Sys2Proof.Machine.execRow dd cc bb aa s
  | .tickInc => Sys2Proof.Machine.execTickInc s
  | .reset => Sys2Proof.Machine.execReset s
  | .modeFull => Sys2Proof.Machine.execModeFull s
  | .modeHalf => Sys2Proof.Machine.execModeHalf s

end Sys2Proof.Machine
end

