-- ==== Sys2Proof/Machine/Fetch.lean ====
section
/-! DEFINITION. Where the words of a step stand (spec/00_scope.md R7, spec/30_encoding.md R75, R81): the micro-operation
in register `CTL`, the tick on port `tick`, reset on port `rst`; and how a given word is put there. -/

namespace Sys2Proof.Machine

/-- A port bit as a word. -/
def bitWord (b : Bool) : Byte := if b then 1#8 else 0#8

/-- The word that selects reset in this step: port `rst` (R170). -/
def State.rstWord (s : State) : Byte := bitWord s.ports.rst

/-- The word that selects the micro-operation of this step: the code of `CTL` (R21, R75). -/
def State.ctlWord (s : State) : Byte := s.regs.ctl.code.setWidth 8

/-- The word that selects the tick increment in this step: port `tick` (R90). -/
def State.tickWord (s : State) : Byte := bitWord s.ports.tick

/-! ### Placing a word (log 13, log 14) -/

/-- Inputs that let a word run: no reset, no tick, no stop, forward, full-step mode, one tick a step. -/
def quietPorts (w : Nat) : Ports w :=
  { rst := false, tick := false, mode := modeFullCode, speed := 1#w, dir := false, stop := false }

/-- The listed inputs with the next step's replaced by `f` of it, or of quiet inputs where none is listed. -/
def withNextPorts {w : Nat} (f : Ports w → Ports w) : List (Ports w) → List (Ports w)
  | [] => [f (quietPorts w)]
  | p :: rest => f p :: rest

/-- The state whose next step runs the word `v` of a format: a micro-operation in `CTL`; a command in the field of phase
`PH` of `ROW`, with S_MAKE in `CTL`; a row at a position of the half-step table that admits it, with S_FETCH in `CTL`, or
in `ROW` itself, with S_MAKE in `CTL`, where the table admits it nowhere (R52); a step mode on port `mode`, with S_INIT
in `CTL`; a tick or a reset on its port. -/
def State.placeWord (s : State) (f : Format) (v : Nat) : State :=
  let b := BitVec.ofNat 8 v
  let noReset : List (Ports s.cfg.w) := withNextPorts (fun p => { p with rst := false }) s.inputs
  match f with
  | .ctl4 => { s with regs := s.regs.goto ((Ctl.ofCode (b.setWidth 4)).getD .sHalt), inputs := noReset }
  | .cmd2 =>
    { s with regs := (s.regs.loadRow (putPair s.regs.row s.regs.ph (b.setWidth 2))).goto .sMake, inputs := noReset }
  | .row8 =>
    let pos : Pos := if halfRowAdmitted 1 b then 1#3 else 0#3
    if halfRowAdmitted pos.toNat b then
      { cfg := { s.cfg with rom := s.cfg.rom.write (romAddr modeHalfCode pos) b }
        regs := ((s.regs.latchMode modeHalfCode).setPos pos).goto .sFetch
        inputs := noReset
        k := s.k }
    else { s with regs := (s.regs.loadRow b).goto .sMake, inputs := noReset }
  | .mode2 =>
    { s with
      regs := s.regs.goto .sInit
      inputs := withNextPorts (fun p => { p with rst := false, mode := b.setWidth 2 }) s.inputs }
  | .tickPort => { s with inputs := withNextPorts (fun p => { p with rst := false, tick := b.getLsbD 0 }) s.inputs }
  | .rstPort => { s with inputs := withNextPorts (fun p => { p with rst := b.getLsbD 0 }) s.inputs }

end Sys2Proof.Machine
end

