-- ==== Sys2Proof/Machine/Cycle.lean ====
section
/-! DEFINITION. What one step of an admitted machine does (spec/00_scope.md R7, spec/60_exceptions.md R154): reset, or the
micro-operation and in parallel the tick increment. -/

namespace Sys2Proof.Machine

/-- The tick increment of the step from `s`, where port `tick` selects it (R90), on the state `t` the micro-operation
leaves. No micro-operation writes `TICK` and TICKINC touches nothing else, so the two are in parallel (log 12). -/
def tickPart (s t : State) : Host.Outcome State Fault Refusal :=
  match decode .tickPort s.tickWord with
  | .ok i => exec i t
  | .error _ => .next t

/-- The micro-operation `CTL` names, and in parallel the tick increment (R7). -/
def microStep (s : State) : Host.Outcome State Fault Refusal :=
  match decode .ctl4 s.ctlWord with
  | .ok i => andThen (exec i s) (tickPart s)
  | .error _ => .refused .noSuchMicroOperation

/-- Everything that happens in one step: reset, if port `rst` selects it, overrides the rest (R154, R170); then the step
boundary. -/
def cycle (s : State) : Host.Outcome State Fault Refusal :=
  andThen
    (match decode .rstPort s.rstWord with
      | .ok i => exec i s
      | .error _ => microStep s)
    (fun t => .next t.advance)

end Sys2Proof.Machine
end

