-- ==== Sys2Proof/Machine/Step.lean ====
section
/-! DEFINITION. One step of SPHC (spec/00_scope.md R7), runs of steps, and the host's `withFetchWord`. -/

namespace Sys2Proof.Machine

/-- One step (R7). Parameters that are no configuration of SPHC are refused (R52, R175; log 7). -/
def step (s : State) : Host.Outcome State Fault Refusal :=
  if s.cfg.admitted then cycle s else .refused .notAConfiguration

/-- `n` steps (R7), stopping at the first that has no next state. -/
def runs : Nat → State → Host.Outcome State Fault Refusal
  | 0, s => .next s
  | n + 1, s => andThen (step s) (runs n)

/-- The state `s` with the instruction of an opcode-table word placed where the next step takes it from
(log 13, log 14). -/
def State.withFetchWord (s : State) (nbits w : Nat) : State :=
  s.placeWord (tableFormat nbits w).1 (tableFormat nbits w).2

end Sys2Proof.Machine
end

