-- ==== Sys2Proof/Safety.lean ====
section
/-! DEFINITION. What the statements speak of: the invariants of spec/10_state.md R35 to R38 and the facts about reachable
states that the other rules derive (R23, R24, R26, R30, R31, R74, R112, R130), gathered into one invariant; and what a
host presents during a run. -/

namespace Sys2Proof.Machine

/-- R35: no phase has both its switches commanded closed. -/
def noShootThrough (out : Byte) : Prop := ∀ p : BitVec 2, ¬ (highSide out p = true ∧ lowSide out p = true)

/-- The lines `o` show the pair (`hs`, `ls`) on phase `p`, and the other three phases as the lines `old` do (R121). -/
def onlyPairWritten (old : Byte) (p : BitVec 2) (hs ls : Bool) (o : Byte) : Prop :=
  highSide o p = hs ∧ lowSide o p = ls ∧
    ∀ q : BitVec 2, q ≠ p → highSide o q = highSide old q ∧ lowSide o q = lowSide old q

/-- `CTL` is inside a phase update (R116). -/
def Ctl.updating (c : Ctl) : Prop := c = .sBreak ∨ c = .sDead ∨ c = .sMake

/-- `CTL` is where the whole row stands on the lines (R37). -/
def Ctl.holding (c : Ctl) : Prop := c = .sAdv ∨ c = .sWent ∨ c = .sSpin

/-- What holds of the registers of every state a reset leads to. -/
structure RegsInv {w dtw : Nat} (rom : Memory) (dt : BitVec dtw) (r : Regs w dtw) : Prop where
  /-- R35. -/
  noShoot : noShootThrough r.out
  /-- `ROW` is a decodable row (R52 (a), R72). -/
  rowCommands : rowFieldsLegal r.row = true
  /-- `MODE_L` is not yet latched or a step mode; `0b11` never occurs (R23, R74). -/
  modeValue : r.modeL = 0b00#2 ∨ legalMode r.modeL = true
  /-- The loop runs with a step mode latched (R23). -/
  modeLatched : r.ctl ≠ .sInit → r.ctl ≠ .sHalt → legalMode r.modeL = true
  /-- R36, first half. -/
  posInRange : legalMode r.modeL = true → r.pos.toNat < (tableLen r.modeL).toNat
  /-- R36, second half. -/
  posUnlatched : r.modeL = 0b00#2 → r.pos = 0#3
  /-- S_INIT executes only right after a reset (R130). -/
  initFresh : r.ctl = .sInit → r = Regs.reset w dtw
  /-- R31: a cause is recorded exactly while halted. -/
  causeHalted : r.cause ≠ .none ↔ r.ctl = .sHalt
  /-- R38. -/
  haltedOpen : r.ctl = .sHalt → r.out = 0x00#8
  /-- R26: no dead time is pending outside S_DEAD. -/
  deadIdle : r.ctl ≠ .sDead → r.dtc = 0#dtw
  /-- R111: in S_DEAD between 1 and `DT` steps are left. -/
  deadRange : r.ctl = .sDead → 1 ≤ r.dtc.toNat ∧ r.dtc.toNat ≤ dt.toNat
  /-- R30. -/
  spinSpeed : r.ctl = .sSpin → r.speedL ≠ 0#w
  /-- R24: from S_FETCH's result to S_ADV, `ROW` is the table row at `POS`. -/
  rowFetched : Ctl.updating r.ctl ∨ r.ctl = .sAdv → r.row = rom.read (romAddr r.modeL r.pos)
  /-- R121, R135: the phases before `PH` already show the row. -/
  phasesDone : Ctl.updating r.ctl → ∀ q : BitVec 2, q.toNat < r.ph.toNat → pairOf r.out q = pairOf r.row q
  /-- R111, R112: the phase being updated is open from S_BREAK's result to S_MAKE. -/
  phaseOpen : r.ctl = .sDead ∨ r.ctl = .sMake → pairOf r.out r.ph = 0b00#2
  /-- R37, and its last sentence: in S_FETCH the previous row still stands. -/
  rowApplied : Ctl.holding r.ctl ∨ r.ctl = .sFetch → r.out = r.row

/-- The invariant of the states a reset leads to; the ROM's canonical form is the model's own. -/
structure Inv (s : State) : Prop where
  /-- The parameters are a configuration of SPHC (R5, R52). -/
  admitted : s.cfg.admitted = true
  /-- The ROM is in its one canonical form. -/
  romCanonical : s.cfg.rom.wf = true
  /-- The facts about the registers. -/
  regs : RegsInv s.cfg.rom s.cfg.dt s.regs

/-! ### What the host presents -/

/-- The host does not reset the machine in the next `n` steps. -/
def State.noReset (s : State) (n : Nat) : Prop := ∀ i, i < n → (s.portsIn i).rst = false

/-- The host does not request a stop in the next `n` steps. -/
def State.noStop (s : State) (n : Nat) : Prop := ∀ i, i < n → (s.portsIn i).stop = false

/-- The number of tick pulses in the next `n` steps (R94's n(j), R98). -/
def State.ticksIn (s : State) : Nat → Nat
  | 0 => 0
  | n + 1 => s.ticksIn n + (if (s.portsIn n).tick then 1 else 0)

/-- How many of the next `n` steps execute S_ADV. -/
def advances : Nat → State → Nat
  | 0, _ => 0
  | n + 1, s =>
    (if s.regs.ctl = .sAdv then 1 else 0) +
      (match step s with
        | .next t => advances n t
        | .fault _ => 0
        | .refused _ => 0)

end Sys2Proof.Machine
end

