-- ==== Sys2Proof/Certificates/Slice0/Obligations.lean ====
section
/-! DEFINITION. The statements for the provers, from the numbered rules of spec/. -/

open Sys2Proof Sys2Proof.Machine

/-! ### Words -/

/-- R71, R72, R74, R75, R90, R170: words written out from the tables of spec/30_encoding.md decode to what they stand
for. -/
def Obligations.SampleWordsDecode : Prop :=
  decode .ctl4 0b0000#8 = .ok .sInit ∧ decode .ctl4 0b0001#8 = .ok .sFetch ∧ decode .ctl4 0b0010#8 = .ok .sBreak ∧
  decode .ctl4 0b0110#8 = .ok .sWent ∧ decode .ctl4 0b1000#8 = .ok .sHalt ∧ decode .cmd2 0b01#8 = .ok .dLow ∧
  decode .cmd2 0b10#8 = .ok .dHigh ∧ decode .row8 0b10010001#8 = .ok (.row 0b10#2 0b01#2 0b00#2 0b01#2) ∧
  decode .mode2 0b01#8 = .ok .modeFull ∧ decode .mode2 0b10#8 = .ok .modeHalf ∧ decode .tickPort 1#8 = .ok .tickInc ∧
  decode .rstPort 1#8 = .ok .reset

/-- R70 to R75, R78, R90, R170: which words of each format are refused. -/
def Obligations.RefusedWordsExactly : Prop :=
  ∀ w : Byte,
    ((∃ e, decode .ctl4 w = .error e) ↔ 9 ≤ w.toNat) ∧
    ((∃ e, decode .cmd2 w = .error e) ↔ 3 ≤ w.toNat) ∧
    ((∃ e, decode .row8 w = .error e) ↔ ∃ p : BitVec 2, highSide w p = true ∧ lowSide w p = true) ∧
    ((∃ e, decode .mode2 w = .error e) ↔ w ≠ 1#8 ∧ w ≠ 2#8) ∧
    ((∃ e, decode .tickPort w = .error e) ↔ w ≠ 1#8) ∧
    ((∃ e, decode .rstPort w = .error e) ↔ w ≠ 1#8)

/-- Decode and encode agree: every well-formed instruction of every format is read back from its word, with every field
of a row at every value the encoding admits (R70 to R75, R81). -/
def Obligations.DecodeOfEncodeIsTheInstruction : Prop :=
  ∀ i : Instr, i.wellFormed = true → decode i.format (encode i) = .ok i

/-- Every word that decodes is the word of the instruction it decodes to, and that instruction is well formed and of the
format it was read in (R70 to R75, R79). -/
def Obligations.EncodeOfDecodeIsTheWord : Prop :=
  ∀ (f : Format) (w : Byte) (i : Instr), decode f w = .ok i → encode i = w ∧ i.format = f ∧ i.wellFormed = true

/-! ### The micro-operations, each whole: its next state, everything else unchanged -/

/-- R130: S_INIT. No step without reset makes `CTL` S_INIT again. -/
def Obligations.SInitChecksThenLatches : Prop :=
  ∀ s : State,
    ((s.ports.mode = 0b01#2 ∨ s.ports.mode = 0b10#2) → s.ports.speed ≠ 0#s.cfg.w →
      exec .sInit s = .next { s with regs := { s.regs with modeL := s.ports.mode, ctl := .sFetch } }) ∧
    (s.ports.mode ≠ 0b01#2 → s.ports.mode ≠ 0b10#2 →
      exec .sInit s = .next { s with regs := { s.regs with out := 0x00#8, cause := .badMode, ctl := .sHalt } }) ∧
    ((s.ports.mode = 0b01#2 ∨ s.ports.mode = 0b10#2) → s.ports.speed = 0#s.cfg.w →
      exec .sInit s = .next { s with regs := { s.regs with out := 0x00#8, cause := .badSpeed, ctl := .sHalt } }) ∧
    (∀ r, s.ports.rst = false → step s = .next (s.after 1 r) → r.ctl ≠ .sInit)

/-- R131: S_FETCH, in both step modes. -/
def Obligations.SFetchReadsTheRow : Prop :=
  ∀ s : State, ∃ v : Byte,
    exec .sFetch s = .next { s with regs := { s.regs with row := v, ph := 0#2, ctl := .sBreak } } ∧
    v = s.cfg.rom.read (s.regs.modeL.extractLsb' 0 1 ++ s.regs.pos) ∧
    (s.regs.modeL = 0b10#2 → v = tableHalf s.cfg.rom s.regs.pos.toNat) ∧
    (s.regs.modeL = 0b01#2 → s.regs.pos.toNat < 4 → v = tableFull s.cfg.rom s.regs.pos.toNat)

/-- R110: S_BREAK. -/
def Obligations.SBreakOpensThePhase : Prop :=
  ∀ s : State, ∃ o : Byte,
    exec .sBreak s = .next { s with regs := { s.regs with out := o, dtc := s.cfg.dt, ctl := .sDead } } ∧
    onlyPairWritten s.regs.out s.regs.ph false false o

/-- R111, its pseudocode: S_DEAD. -/
def Obligations.SDeadCountsDown : Prop :=
  ∀ s : State,
    (1 < s.regs.dtc.toNat → ∃ d : BitVec s.cfg.dtw, d.toNat = s.regs.dtc.toNat - 1 ∧
      exec .sDead s = .next { s with regs := { s.regs with dtc := d, ctl := .sDead } }) ∧
    (s.regs.dtc.toNat ≤ 1 → exec .sDead s = .next { s with regs := { s.regs with dtc := 0#s.cfg.dtw, ctl := .sMake } })

/-- R112, its pseudocode: S_MAKE, for every field but the reserved one. -/
def Obligations.SMakeAppliesTheField : Prop :=
  ∀ s : State, ¬ (highSide s.regs.row s.regs.ph = true ∧ lowSide s.regs.row s.regs.ph = true) →
    ∃ o : Byte,
      exec .sMake s = .next { s with regs := { s.regs with
        out := o
        ph := if s.regs.ph = 3#2 then 3#2 else s.regs.ph + 1#2
        ctl := if s.regs.ph = 3#2 then .sAdv else .sBreak } } ∧
      onlyPairWritten s.regs.out s.regs.ph (highSide s.regs.row s.regs.ph) (lowSide s.regs.row s.regs.ph) o

/-- R119, U1: S_MAKE has no meaning for the reserved field `0b11`; the model refuses it (log 6). -/
def Obligations.SMakeRefusesTheReservedField : Prop :=
  ∀ s : State, highSide s.regs.row s.regs.ph = true → lowSide s.regs.row s.regs.ph = true →
    exec .sMake s = .refused .reservedCommand

/-- R112 with R113 to R115: S_MAKE is the write of the command its field decodes to, and then the move on; for every
command the decoder reads from the field. That a command is the pair write alone is the model's reading (log 11). -/
def Obligations.SMakeRunsTheDecodedCommand : Prop :=
  ∀ (s t : State) (i : Instr), decode .cmd2 ((pairOf s.regs.row s.regs.ph).setWidth 8) = .ok i → exec i s = .next t →
    exec .sMake s = .next { t with regs := { t.regs with
      ph := if s.regs.ph = 3#2 then 3#2 else s.regs.ph + 1#2
      ctl := if s.regs.ph = 3#2 then .sAdv else .sBreak } }

/-- R132: S_ADV: its pseudocode for both step modes, the two equivalent remainders for a position in the table, and that
a forward and a reverse advance undo each other. -/
def Obligations.SAdvAdvancesWithWrap : Prop :=
  ∀ (s : State) (L : Nat), (s.regs.modeL = 0b01#2 ∧ L = 4) ∨ (s.regs.modeL = 0b10#2 ∧ L = 8) →
    ∃ v : Pos,
      exec .sAdv s = .next { s with regs := { s.regs with pos := v, ctl := .sWent } } ∧
      (s.ports.dir = false → v = if s.regs.pos.toNat + 1 = L then 0#3 else s.regs.pos + 1#3) ∧
      (s.ports.dir = true → v = if s.regs.pos = 0#3 then BitVec.ofNat 3 (L - 1) else s.regs.pos - 1#3) ∧
      (s.regs.pos.toNat < L →
        (s.ports.dir = false → v.toNat = (s.regs.pos.toNat + 1) % L) ∧
        (s.ports.dir = true → v.toNat = (s.regs.pos.toNat + L - 1) % L) ∧
        nextPos (!s.ports.dir) s.regs.modeL v = s.regs.pos)

/-- S_ADV with no step mode in `MODE_L`: it runs, and only the position is open (R77 states no `LEN` there; the value is
the model's free one, log 5). -/
def Obligations.SAdvRunsWithoutAStepMode : Prop :=
  ∀ s : State, s.regs.modeL = 0b00#2 ∨ s.regs.modeL = 0b11#2 →
    ∃ v : Pos, exec .sAdv s = .next { s with regs := { s.regs with pos := v, ctl := .sWent } }

/-- R92, its pseudocode: S_WENT. -/
def Obligations.SWentCapturesTheWait : Prop :=
  ∀ s : State,
    (s.ports.speed ≠ 0#s.cfg.w →
      exec .sWent s = .next { s with regs := { s.regs with t0 := s.regs.tick, speedL := s.ports.speed, ctl := .sSpin } }) ∧
    (s.ports.speed = 0#s.cfg.w →
      exec .sWent s = .next { s with regs := { s.regs with out := 0x00#8, cause := .badSpeed, ctl := .sHalt } })

/-- R93, its pseudocode: S_SPIN. -/
def Obligations.SSpinTestsStopThenTime : Prop :=
  ∀ s : State,
    (s.ports.stop = false → s.regs.speedL.toNat ≤ (s.regs.tick - s.regs.t0).toNat →
      exec .sSpin s = .next { s with regs := { s.regs with ctl := .sFetch } }) ∧
    (s.ports.stop = false → (s.regs.tick - s.regs.t0).toNat < s.regs.speedL.toNat →
      exec .sSpin s = .next { s with regs := { s.regs with ctl := .sSpin } }) ∧
    (s.ports.stop = true →
      exec .sSpin s = .next { s with regs := { s.regs with out := 0x00#8, cause := .stop, ctl := .sHalt } })

/-- R133, its pseudocode: S_HALT. -/
def Obligations.SHaltWritesNothingElse : Prop :=
  ∀ s : State, exec .sHalt s = .next { s with regs := { s.regs with ctl := .sHalt } }

/-! ### The other rows of the opcode table -/

/-- R113, R114, R115: FLOAT, DLOW and DHIGH write the pair of the phase being updated and nothing else. That the row of
the table is this write, without S_MAKE's moves, is the model's reading (log 11). -/
def Obligations.CommandsWriteTheirPair : Prop :=
  ∀ s : State,
    (∃ o : Byte, exec .float s = .next { s with regs := { s.regs with out := o } } ∧
      onlyPairWritten s.regs.out s.regs.ph false false o) ∧
    (∃ o : Byte, exec .dLow s = .next { s with regs := { s.regs with out := o } } ∧
      onlyPairWritten s.regs.out s.regs.ph false true o) ∧
    (∃ o : Byte, exec .dHigh s = .next { s with regs := { s.regs with out := o } } ∧
      onlyPairWritten s.regs.out s.regs.ph true false o)

/-- R72, R24: a row of commands is loaded into `ROW`, each field in the place of its phase; a reserved field is refused
(R78). That the ROW container stands for this load is the model's choice (log 9). -/
def Obligations.RowIsLoaded : Prop :=
  ∀ (s : State) (dd cc bb aa : Pair),
    (dd ≠ 3#2 → cc ≠ 3#2 → bb ≠ 3#2 → aa ≠ 3#2 →
      ∃ v : Byte, exec (.row dd cc bb aa) s = .next { s with regs := { s.regs with row := v } } ∧
        pairOf v 0#2 = aa ∧ pairOf v 1#2 = bb ∧ pairOf v 2#2 = cc ∧ pairOf v 3#2 = dd) ∧
    (dd = 3#2 ∨ cc = 3#2 ∨ bb = 3#2 ∨ aa = 3#2 → exec (.row dd cc bb aa) s = .refused .reservedCommand)

/-- R74, R23: MODE_FULL and MODE_HALF latch their code. That the rows stand for this latch is the model's choice
(log 10). -/
def Obligations.ModesAreLatched : Prop :=
  ∀ s : State,
    exec .modeFull s = .next { s with regs := { s.regs with modeL := 0b01#2 } } ∧
    exec .modeHalf s = .next { s with regs := { s.regs with modeL := 0b10#2 } }

/-- R90, the increment itself: TICKINC. -/
def Obligations.TickIncAddsOne : Prop :=
  ∀ s : State, ∃ v : BitVec s.cfg.w,
    exec .tickInc s = .next { s with regs := { s.regs with tick := v } } ∧
    v.toNat = (s.regs.tick.toNat + 1) % 2 ^ s.cfg.w

/-- R170, R171: RESET gives every register its reset value, from any state, and the output ports theirs. -/
def Obligations.ResetGivesTheResetValues : Prop :=
  ∀ s : State, ∃ r : Regs s.cfg.w s.cfg.dtw,
    exec .reset s = .next { s with regs := r } ∧
    r.ctl = .sInit ∧ r.pos = 0#3 ∧ r.modeL = 0b00#2 ∧ r.row = 0x00#8 ∧ r.ph = 0#2 ∧ r.dtc.toNat = 0 ∧ r.out = 0x00#8 ∧
    r.tick.toNat = 0 ∧ r.t0.toNat = 0 ∧ r.speedL.toNat = 0 ∧ r.cause = .none ∧
    ({ s with regs := r } : State).outPorts =
      { out := 0x00#8, pos := 0#3, now := 0#s.cfg.w, halted := false, cause := 0b00#2 }

/-- R171 at the machine's own reset state. That it is built with the parameters of R5 is the model's choice (log 2). -/
def Obligations.ResetStateHoldsTheResetValues : Prop :=
  State.reset.regs.ctl = .sInit ∧ State.reset.regs.pos = 0#3 ∧ State.reset.regs.modeL = 0b00#2 ∧
  State.reset.regs.row = 0x00#8 ∧ State.reset.regs.ph = 0#2 ∧ State.reset.regs.dtc.toNat = 0 ∧
  State.reset.regs.out = 0x00#8 ∧ State.reset.regs.tick.toNat = 0 ∧ State.reset.regs.t0.toNat = 0 ∧
  State.reset.regs.speedL.toNat = 0 ∧ State.reset.regs.cause = .none ∧
  State.reset.cfg.w = 32 ∧ State.reset.cfg.dtw = 8 ∧ State.reset.cfg.dt.toNat = 1 ∧ State.reset.cfg.admitted = true

/-- R59: no instruction writes the ROM, nor anything else but registers. -/
def Obligations.NoInstructionWritesTheRom : Prop :=
  ∀ (i : Instr) (s t : State), exec i s = .next t →
    (∀ a : RomAddr, t.cfg.rom.read a = s.cfg.rom.read a) ∧ t.cfg = s.cfg ∧ t.k = s.k ∧ ∃ r, t = { s with regs := r }

/-! ### The step -/

/-- R7, R90: a step without reset runs the instruction that `CTL` decodes to, then counts the tick if there is one, and
crosses the step boundary. The order of the two is the model's (log 12). -/
def Obligations.StepRunsTheDecodedInstruction : Prop :=
  ∀ (s t : State) (i : Instr), s.cfg.admitted = true → s.ports.rst = false →
    decode .ctl4 (s.regs.ctl.code.setWidth 8) = .ok i → exec i s = .next t →
    (s.ports.tick = false → step s = .next { t with inputs := t.inputs.drop 1, k := t.k + 1 }) ∧
    (s.ports.tick = true → ∀ u, exec .tickInc t = .next u →
      step s = .next { u with inputs := u.inputs.drop 1, k := u.k + 1 })

/-- R7, R78: a step without reset whose instruction is refused is refused with the same reason. That what the spec rules
out is a refusal is the model's choice (log 6). -/
def Obligations.StepPassesOnARefusal : Prop :=
  ∀ (s : State) (i : Instr) (e : Refusal), s.cfg.admitted = true → s.ports.rst = false →
    decode .ctl4 (s.regs.ctl.code.setWidth 8) = .ok i → exec i s = .refused e → step s = .refused e

/-- R170, R154: a step with reset gives the reset state, whatever `CTL`, the tick and the other ports are; without
reset `CTL` leaves S_HALT in no step, and only S_INIT writes `MODE_L`. -/
def Obligations.ResetOverridesTheStep : Prop :=
  ∀ s : State, s.cfg.admitted = true →
    (s.ports.rst = true → ∀ t, exec .reset s = .next t →
      step s = .next { t with inputs := t.inputs.drop 1, k := t.k + 1 }) ∧
    (s.ports.rst = true → step s = .next (s.after 1
      { ctl := .sInit, pos := 0#3, modeL := 0b00#2, row := 0x00#8, ph := 0#2, dtc := 0#s.cfg.dtw, out := 0x00#8,
        tick := 0#s.cfg.w, t0 := 0#s.cfg.w, speedL := 0#s.cfg.w, cause := .none })) ∧
    (s.ports.rst = false → ∀ r, step s = .next (s.after 1 r) →
      (s.regs.ctl = .sHalt → r.ctl = .sHalt) ∧ (s.regs.ctl ≠ .sInit → r.modeL = s.regs.modeL))

/-- Every next state of a step has the same configuration, ROM included, and one input used up (R59, R62, R7). -/
def Obligations.StepsKeepTheConfiguration : Prop :=
  ∀ s t : State, step s = .next t → ∃ r, t = s.after 1 r ∧ ∀ a : RomAddr, t.cfg.rom.read a = s.cfg.rom.read a

/-- R136: the complete transition table of `CTL`. -/
def Obligations.ControlFollowsTheTransitionTable : Prop :=
  ∀ (s : State) (r : Regs s.cfg.w s.cfg.dtw), step s = .next (s.after 1 r) →
    (s.ports.rst = true → r.ctl = .sInit) ∧
    (s.ports.rst = false → r.ctl =
      match s.regs.ctl with
      | .sInit =>
        if (s.ports.mode = 0b01#2 ∨ s.ports.mode = 0b10#2) ∧ s.ports.speed ≠ 0#s.cfg.w then .sFetch else .sHalt
      | .sFetch => .sBreak
      | .sBreak => .sDead
      | .sDead => if 1 < s.regs.dtc.toNat then .sDead else .sMake
      | .sMake => if s.regs.ph = 3#2 then .sAdv else .sBreak
      | .sAdv => .sWent
      | .sWent => if s.ports.speed = 0#s.cfg.w then .sHalt else .sSpin
      | .sSpin =>
        if s.ports.stop then .sHalt
        else if s.regs.speedL.toNat ≤ (s.regs.tick - s.regs.t0).toNat then .sFetch else .sSpin
      | .sHalt => .sHalt)

/-- The column "written by" of the register table of R20: in a step without reset a register changes only where the
table lets it, `OUT` and `CAUSE` also on a halt entry. -/
def Obligations.RegistersHaveTheirWriters : Prop :=
  ∀ (s : State) (r : Regs s.cfg.w s.cfg.dtw), step s = .next (s.after 1 r) → s.ports.rst = false →
    (r.pos ≠ s.regs.pos → s.regs.ctl = .sAdv) ∧
    (r.modeL ≠ s.regs.modeL → s.regs.ctl = .sInit) ∧
    (r.row ≠ s.regs.row → s.regs.ctl = .sFetch) ∧
    (r.ph ≠ s.regs.ph → s.regs.ctl = .sFetch ∨ s.regs.ctl = .sMake) ∧
    (r.dtc ≠ s.regs.dtc → s.regs.ctl = .sBreak ∨ s.regs.ctl = .sDead) ∧
    (r.out ≠ s.regs.out → s.regs.ctl = .sBreak ∨ s.regs.ctl = .sMake ∨ (s.regs.ctl ≠ .sHalt ∧ r.ctl = .sHalt)) ∧
    (r.tick ≠ s.regs.tick → s.ports.tick = true) ∧
    (r.t0 ≠ s.regs.t0 → s.regs.ctl = .sWent) ∧
    (r.speedL ≠ s.regs.speedL → s.regs.ctl = .sWent) ∧
    (r.cause ≠ s.regs.cause → s.regs.ctl ≠ .sHalt ∧ r.ctl = .sHalt)

/-- R90, R157, R158: a tick changes `TICK` by one, modulo `2^W`, and nothing else that the step does, whatever `CTL`
is; without a tick `TICK` keeps its value; in a step with reset the pulse is discarded. -/
def Obligations.TickTouchesOnlyTheCounter : Prop :=
  ∀ (c : Config) (r r0 r1 : Regs c.w c.dtw) (p : Ports c.w) (rest : List (Ports c.w)) (k : Nat),
    step ⟨c, r, { p with tick := false } :: rest, k⟩ = .next ⟨c, r0, rest, k + 1⟩ →
    step ⟨c, r, { p with tick := true } :: rest, k⟩ = .next ⟨c, r1, rest, k + 1⟩ →
    (p.rst = false → r0.tick = r.tick ∧ r1.tick.toNat = (r.tick.toNat + 1) % 2 ^ c.w ∧ r1 = { r0 with tick := r1.tick }) ∧
    (p.rst = true → r1 = r0)

/-- R182, R32: each port is looked at only at its sampling points; two input vectors that agree there give the same
step. -/
def Obligations.PortsAreSampledOnlyAtTheirPoints : Prop :=
  ∀ (c : Config) (r : Regs c.w c.dtw) (p q : Ports c.w) (rest : List (Ports c.w)) (k : Nat),
    p.rst = q.rst → p.tick = q.tick →
    (r.ctl = .sInit → p.mode = q.mode) →
    (r.ctl = .sInit ∨ r.ctl = .sWent → p.speed = q.speed) →
    (r.ctl = .sAdv → p.dir = q.dir) →
    (r.ctl = .sSpin → p.stop = q.stop) →
    step ⟨c, r, p :: rest, k⟩ = step ⟨c, r, q :: rest, k⟩

/-- R150, R151, R152, R153, R154, R155: a step enters S_HALT only from the three raising micro-operations under their
conditions, with the code of the cause, and then writes `OUT`, `CAUSE`, `CTL` and nothing else but the tick. -/
def Obligations.HaltEntryIsPrecise : Prop :=
  ∀ (s : State) (r : Regs s.cfg.w s.cfg.dtw), step s = .next (s.after 1 r) → s.ports.rst = false →
    s.regs.ctl ≠ .sHalt → r.ctl = .sHalt →
    r = { s.regs with out := 0x00#8, cause := r.cause, ctl := .sHalt, tick := r.tick } ∧
    ((s.regs.ctl = .sInit ∧ s.ports.mode ≠ 0b01#2 ∧ s.ports.mode ≠ 0b10#2 ∧ r.cause.code = 0b01#2) ∨
      (s.regs.ctl = .sInit ∧ (s.ports.mode = 0b01#2 ∨ s.ports.mode = 0b10#2) ∧ s.ports.speed = 0#s.cfg.w ∧
        r.cause.code = 0b10#2) ∨
      (s.regs.ctl = .sWent ∧ s.ports.speed = 0#s.cfg.w ∧ r.cause.code = 0b10#2) ∨
      (s.regs.ctl = .sSpin ∧ s.ports.stop = true ∧ r.cause.code = 0b11#2))

/-- R142: from inside the loop no step without reset reaches S_HALT unless `speed == 0` at an S_WENT step or
`stop == 1` at an S_SPIN step. -/
def Obligations.TheLoopHasNoErrors : Prop :=
  ∀ (s : State) (r : Regs s.cfg.w s.cfg.dtw), step s = .next (s.after 1 r) → s.ports.rst = false →
    s.regs.ctl ≠ .sInit → s.regs.ctl ≠ .sHalt →
    ¬ (s.regs.ctl = .sWent ∧ s.ports.speed = 0#s.cfg.w) → ¬ (s.regs.ctl = .sSpin ∧ s.ports.stop = true) →
    r.ctl ≠ .sHalt

/-- R52, R175, U1: parameters that are no configuration of SPHC are refused, reset or not. That they are refused at the
step is the model's form of it (log 7). -/
def Obligations.OtherConfigurationsAreRefused : Prop :=
  ∀ s : State, s.cfg.admitted = false → step s = .refused .notAConfiguration

/-- R5, R52: what a configuration is, written out: coil 1 is bits 3..0 of a row, coil 2 bits 7..4; `+` is `0110`, `-` is
`1001`, `0` is `0000`. -/
def Obligations.AdmissionSpelledOut : Prop :=
  ∀ c : Config, c.admitted = true ↔
    (1 ≤ c.w ∧ 1 ≤ c.dtw ∧ 1 ≤ c.dt.toNat) ∧
    (∀ i : Nat, i < 4 → ∀ v : Byte, v = c.rom.read (BitVec.ofNat 4 (8 + i)) →
      (v.extractLsb' 0 4 = 0b0110#4 ∨ v.extractLsb' 0 4 = 0b1001#4) ∧
      (v.extractLsb' 4 4 = 0b0110#4 ∨ v.extractLsb' 4 4 = 0b1001#4)) ∧
    (∀ i : Nat, i < 8 → ∀ v : Byte, v = c.rom.read (BitVec.ofNat 4 i) →
      (i % 2 = 0 →
        (v.extractLsb' 0 4 = 0b0110#4 ∨ v.extractLsb' 0 4 = 0b1001#4) ∧
        (v.extractLsb' 4 4 = 0b0110#4 ∨ v.extractLsb' 4 4 = 0b1001#4)) ∧
      (i % 2 = 1 →
        ((v.extractLsb' 0 4 = 0b0110#4 ∨ v.extractLsb' 0 4 = 0b1001#4) ∧ v.extractLsb' 4 4 = 0b0000#4) ∨
        (v.extractLsb' 0 4 = 0b0000#4 ∧ (v.extractLsb' 4 4 = 0b0110#4 ∨ v.extractLsb' 4 4 = 0b1001#4))))

/-- R53, R54, R55: the tables the spec takes, and that they are admitted. That an unlisted ROM address reads as them is
the model's choice (log 3). -/
def Obligations.DefaultTablesAreAdmitted : Prop :=
  (List.range 8).map (tableHalf Config.default.rom) =
    [0x66#8, 0x60#8, 0x69#8, 0x09#8, 0x99#8, 0x90#8, 0x96#8, 0x06#8] ∧
  (List.range 4).map (tableFull Config.default.rom) = [0x66#8, 0x69#8, 0x99#8, 0x96#8] ∧
  Config.default.admitted = true

/-- R33, R91: the output ports are wires from the registers. -/
def Obligations.OutputPortsAreWires : Prop :=
  ∀ s : State,
    s.outPorts.out = s.regs.out ∧
    (∀ p : BitVec 2, s.outPorts.out.getLsbD (2 * p.toNat + 1) = highSide s.regs.out p ∧
      s.outPorts.out.getLsbD (2 * p.toNat) = lowSide s.regs.out p) ∧
    s.outPorts.pos = s.regs.pos ∧ s.outPorts.now = s.regs.tick ∧
    (s.outPorts.halted = true ↔ s.regs.ctl = .sHalt) ∧
    s.outPorts.cause = (match s.regs.cause with
      | .none => 0b00#2
      | .badMode => 0b01#2
      | .badSpeed => 0b10#2
      | .stop => 0b11#2)

/-- R95: the arithmetic of the timebase, at every width: the difference is the number of ticks since `T0`, whatever the
absolute values, as long as it is less than `2^W`. -/
def Obligations.ElapsedCountsAcrossTheWrap : Prop :=
  ∀ (w : Nat) (t0 d : BitVec w) (n : Nat),
    (elapsed (t0 + BitVec.ofNat w n) t0).toNat = n % 2 ^ w ∧
    (expired (t0 + BitVec.ofNat w n) t0 d = true ↔ d.toNat ≤ n % 2 ^ w) ∧
    (tickSucc t0).toNat = (t0.toNat + 1) % 2 ^ w

/-! ### Invariants of every step -/

/-- The machine's own reset state, with the parameters of log 2, meets the invariant. -/
def Obligations.InvariantHoldsAtReset : Prop := Inv State.reset

/-- A step with reset, from any state at all, gives a state that meets the invariant (R170, R172). -/
def Obligations.ResetStepEstablishesTheInvariant : Prop :=
  ∀ s t : State, s.cfg.rom.wf = true → s.ports.rst = true → step s = .next t → Inv t

/-- Every step keeps the invariant: R23, R24, R26, R30, R31, R35 to R38, R74, R121 and the canonical form of the ROM. -/
def Obligations.EveryStepKeepsTheInvariant : Prop :=
  ∀ s t : State, Inv s → step s = .next t → Inv t

/-- From a state that meets the invariant no run stops: every number of steps, under every input, has a next state, and
it meets the invariant (R7: the machine is a total function). -/
def Obligations.NoRunStops : Prop :=
  ∀ (s : State) (n : Nat), Inv s → ∃ r, runs n s = .next (s.after n r) ∧ Inv (s.after n r)

/-- R35: no shoot-through at any step boundary after a reset step, for every configuration and every input. -/
def Obligations.NoShootThroughAfterReset : Prop :=
  ∀ (s t u : State) (n : Nat), s.ports.rst = true → step s = .next t → runs n t = .next u →
    ∀ p : BitVec 2, ¬ (highSide u.regs.out p = true ∧ lowSide u.regs.out p = true)

/-- R36, R37, R38: position in range and the row's address populated; the row applied; halted is safe: at every step
boundary after a reset step. -/
def Obligations.ReachableStatesMeetTheRules : Prop :=
  ∀ (s t u : State) (n : Nat), s.ports.rst = true → step s = .next t → runs n t = .next u →
    (u.regs.modeL = 0b01#2 → u.regs.pos.toNat < 4) ∧
    (u.regs.modeL = 0b10#2 → u.regs.pos.toNat < 8) ∧
    (u.regs.modeL = 0b00#2 → u.regs.pos = 0#3) ∧
    (u.regs.ctl = .sFetch → (romAddr u.regs.modeL u.regs.pos).toNat < 12) ∧
    (u.regs.ctl = .sAdv ∨ u.regs.ctl = .sWent ∨ u.regs.ctl = .sSpin ∨ u.regs.ctl = .sFetch → u.regs.out = u.regs.row) ∧
    (u.regs.ctl = .sHalt → u.regs.out = 0x00#8 ∧ u.regs.cause ≠ .none)

/-- R112: in a state that meets the invariant S_MAKE opens no switch and closes at most one. -/
def Obligations.SMakeClosesAtMostOneSwitch : Prop :=
  ∀ s t : State, Inv s → s.regs.ctl = .sMake → exec .sMake s = .next t →
    (∀ p : BitVec 2, (highSide s.regs.out p = true → highSide t.regs.out p = true) ∧
      (lowSide s.regs.out p = true → lowSide t.regs.out p = true)) ∧
    (∀ p : BitVec 2, p ≠ s.regs.ph → pairOf t.regs.out p = pairOf s.regs.out p) ∧
    pairOf s.regs.out s.regs.ph = 0b00#2 ∧
    ¬ (highSide t.regs.out s.regs.ph = true ∧ lowSide t.regs.out s.regs.ph = true)

/-! ### Composites -/

/-- R116, R117, R118: the phase update SETPHASE: the pair of the phase at each of its `DT + 3` boundaries, from every
old pair to every command; the other phases keep theirs. -/
def Obligations.PhaseUpdateBreaksBeforeItMakes : Prop :=
  ∀ (s : State) (new : OutputState), s.cfg.admitted = true → s.regs.ctl = .sBreak →
    pairOf s.regs.row s.regs.ph = new.pair → s.noReset (s.cfg.dt.toNat + 2) →
    ∀ j : Nat, j ≤ s.cfg.dt.toNat + 2 → ∃ r, runs j s = .next (s.after j r) ∧
      pairOf r.out s.regs.ph =
        (if j = 0 then pairOf s.regs.out s.regs.ph else if j ≤ s.cfg.dt.toNat + 1 then 0b00#2 else new.pair) ∧
      (∀ q : BitVec 2, q ≠ s.regs.ph → pairOf r.out q = pairOf s.regs.out q) ∧
      r.ctl =
        (if j = 0 then .sBreak else if j ≤ s.cfg.dt.toNat then .sDead else if j = s.cfg.dt.toNat + 1 then .sMake
         else if s.regs.ph = 3#2 then .sAdv else .sBreak)

/-- R94 (a), (f): after an S_WENT with duration `d`, as long as fewer than `d` ticks have been counted, `CTL` is S_SPIN
and only `CTL`, `T0`, `SPEED_L` and `TICK` have changed. -/
def Obligations.WaitSpinsWhileTicksAreMissing : Prop :=
  ∀ (s : State) (m : Nat), s.cfg.admitted = true → s.regs.ctl = .sWent → s.ports.speed ≠ 0#s.cfg.w → 1 ≤ m →
    s.noReset m → (∀ i, 1 ≤ i → i < m → (s.portsIn i).stop = false) →
    (∀ j, 1 ≤ j → j < m → s.ticksIn j < s.ports.speed.toNat) →
    runs m s = .next (s.after m { s.regs with
      ctl := .sSpin
      t0 := s.regs.tick
      speedL := s.ports.speed
      tick := s.regs.tick + BitVec.ofNat s.cfg.w (s.ticksIn m) })

/-- R94 (b), (c), (d): the wait returns at the least step by which `d` ticks have been counted; exactly `d` have been;
the counter has then moved by `d`, or by `d + 1` if the exit step had a tick too (modulo `2^W`, log 19). -/
def Obligations.WaitReturnsAfterItsTicks : Prop :=
  ∀ (s : State) (m : Nat), s.cfg.admitted = true → s.regs.ctl = .sWent → s.ports.speed ≠ 0#s.cfg.w → 1 ≤ m →
    s.noReset (m + 1) → (∀ i, 1 ≤ i → i ≤ m → (s.portsIn i).stop = false) →
    (∀ j, 1 ≤ j → j < m → s.ticksIn j < s.ports.speed.toNat) → s.ports.speed.toNat ≤ s.ticksIn m →
    s.ticksIn m = s.ports.speed.toNat ∧
    runs (m + 1) s = .next (s.after (m + 1) { s.regs with
      ctl := .sFetch
      t0 := s.regs.tick
      speedL := s.ports.speed
      tick := s.regs.tick + s.ports.speed + (if (s.portsIn m).tick then 1#s.cfg.w else 0#s.cfg.w) })

/-- R96: a wait in progress returns if the host supplies enough ticks: from any S_SPIN state, once `SPEED_L` ticks have
come, S_FETCH has been reached, without reset or stop. -/
def Obligations.EnoughTicksEndTheWait : Prop :=
  ∀ (s : State) (n : Nat), s.cfg.admitted = true → s.regs.ctl = .sSpin → s.noReset (n + 1) → s.noStop (n + 1) →
    s.regs.speedL.toNat ≤ s.ticksIn n →
    ∃ m, m ≤ n ∧ ∃ r, runs (m + 1) s = .next (s.after (m + 1) r) ∧ r.ctl = .sFetch ∧ r.out = s.regs.out ∧ r.pos = s.regs.pos

/-- R186, R96: without ticks a wait that has not expired never returns: no register changes. -/
def Obligations.WithoutTicksTheWaitStays : Prop :=
  ∀ (s : State) (n : Nat), s.cfg.admitted = true → s.regs.ctl = .sSpin →
    (s.regs.tick - s.regs.t0).toNat < s.regs.speedL.toNat → s.noReset n → s.noStop n → s.ticksIn n = 0 →
    runs n s = .next (s.after n s.regs)

/-- R134, R135, R137: the `4*DT + 10` steps from S_FETCH to the wait: all four phases show the row at `POS`, the
position has advanced by one in the direction sampled at S_ADV, and every tick has been counted. -/
def Obligations.IterationAppliesTheRow : Prop :=
  ∀ (s : State) (n L : Nat), Inv s → s.regs.ctl = .sFetch → n = 4 * s.cfg.dt.toNat + 10 → s.noReset n →
    L = (if s.regs.modeL = 0b01#2 then 4 else 8) →
    ∃ r, runs n s = .next (s.after n r) ∧ r.ctl = .sWent ∧
      r.row = s.cfg.rom.read (romAddr s.regs.modeL s.regs.pos) ∧ r.out = r.row ∧
      r.pos.toNat =
        (if (s.portsIn (n - 1)).dir then (s.regs.pos.toNat + L - 1) % L else (s.regs.pos.toNat + 1) % L) ∧
      r.modeL = s.regs.modeL ∧ r.ph = 3#2 ∧ r.dtc = 0#s.cfg.dtw ∧ r.t0 = s.regs.t0 ∧ r.speedL = s.regs.speedL ∧
      r.cause = s.regs.cause ∧ r.tick = s.regs.tick + BitVec.ofNat s.cfg.w (s.ticksIn n)

/-- R134, R98: a whole iteration, from S_FETCH to the next S_FETCH: the row at `POS` stands on the lines, `POS` has
advanced, and the ticks of the iteration are the `d` of the wait, those of the `4*DT + 10` steps before it, and that of
the exit step. -/
def Obligations.IterationTakesItsTicks : Prop :=
  ∀ (s : State) (e m L : Nat), Inv s → s.regs.ctl = .sFetch → e = 4 * s.cfg.dt.toNat + 10 → 1 ≤ m →
    s.noReset (e + m + 1) → (s.portsIn e).speed ≠ 0#s.cfg.w →
    (∀ i, 1 ≤ i → i ≤ m → (s.portsIn (e + i)).stop = false) →
    (∀ j, 1 ≤ j → j < m → s.ticksIn (e + j) - s.ticksIn e < (s.portsIn e).speed.toNat) →
    (s.portsIn e).speed.toNat ≤ s.ticksIn (e + m) - s.ticksIn e →
    L = (if s.regs.modeL = 0b01#2 then 4 else 8) →
    s.ticksIn (e + m + 1) =
      (s.portsIn e).speed.toNat + s.ticksIn e + (if (s.portsIn (e + m)).tick then 1 else 0) ∧
    ∃ r, runs (e + m + 1) s = .next (s.after (e + m + 1) r) ∧ r.ctl = .sFetch ∧
      r.row = s.cfg.rom.read (romAddr s.regs.modeL s.regs.pos) ∧ r.out = r.row ∧
      r.pos.toNat =
        (if (s.portsIn (e - 1)).dir then (s.regs.pos.toNat + L - 1) % L else (s.regs.pos.toNat + 1) % L) ∧
      r.speedL = (s.portsIn e).speed

/-- R137, R173: from the reset state with a legal configuration, the first row is on the lines and the first wait is
entered `4*DT + 11` steps later. -/
def Obligations.FirstRowAfterReset : Prop :=
  ∀ (s : State) (n : Nat), s.cfg.admitted = true → s.regs = Regs.reset s.cfg.w s.cfg.dtw →
    n = 4 * s.cfg.dt.toNat + 11 → s.noReset n →
    (s.ports.mode = 0b01#2 ∨ s.ports.mode = 0b10#2) → s.ports.speed ≠ 0#s.cfg.w →
    ∃ r, runs n s = .next (s.after n r) ∧ r.ctl = .sWent ∧ r.modeL = s.ports.mode ∧
      r.out = s.cfg.rom.read (romAddr s.ports.mode 0#3) ∧ r.row = r.out

/-- R140, R138, R22: over a run without reset and in one direction, forward throughout or in reverse throughout, the
position moves by exactly one, modulo the table length, for each S_ADV executed. -/
def Obligations.PositionCountsTheAdvances : Prop :=
  ∀ (s : State) (n L : Nat) (r : Regs s.cfg.w s.cfg.dtw), Inv s →
    (s.regs.modeL = 0b01#2 ∧ L = 4) ∨ (s.regs.modeL = 0b10#2 ∧ L = 8) → s.noReset n →
    runs n s = .next (s.after n r) →
    ((∀ i, i < n → (s.portsIn i).dir = false) → r.pos.toNat = (s.regs.pos.toNat + advances n s) % L) ∧
    ((∀ i, i < n → (s.portsIn i).dir = true) → r.pos.toNat = (s.regs.pos.toNat + (L - 1) * advances n s) % L)

/-- R153, R183: if `stop` is held, the lines are open and the machine is halted within `4*DT + 12` steps, from anywhere
inside the loop. -/
def Obligations.HeldStopOpensTheLines : Prop :=
  ∀ s : State, Inv s → s.regs.ctl ≠ .sInit → s.noReset (4 * s.cfg.dt.toNat + 12) →
    (∀ i, i < 4 * s.cfg.dt.toNat + 12 → (s.portsIn i).stop = true) →
    ∃ n, n ≤ 4 * s.cfg.dt.toNat + 12 ∧ ∃ r, runs n s = .next (s.after n r) ∧ r.ctl = .sHalt ∧ r.out = 0x00#8

/-- R156, R133: once halted, the machine stays halted without reset, under every input, with its cause and every other
register but `TICK`; a reset starts it again from S_INIT at position 0 with no cause. -/
def Obligations.HaltLastsUntilReset : Prop :=
  ∀ (s : State) (n : Nat), s.cfg.admitted = true → s.regs.ctl = .sHalt → s.noReset n →
    runs n s = .next (s.after n { s.regs with tick := s.regs.tick + BitVec.ofNat s.cfg.w (s.ticksIn n) }) ∧
    ((s.portsIn n).rst = true →
      ∃ r, runs (n + 1) s = .next (s.after (n + 1) r) ∧ r.ctl = .sInit ∧ r.pos = 0#3 ∧ r.cause = .none ∧ r.out = 0x00#8)
end

