-- ==== Sys2Proof/Laws/Operands.lean ====
section
/-! SUPPORT. What the operand forms of spec/30_encoding.md R77 and the conditions of the timebase can be, each said
once. -/

namespace Sys2Proof.Machine

/-! ### Pairs -/

/-- The pair just written is read back (R110, R112). -/
@[simp] theorem pairOf_putPair_self : ∀ (v : Byte) (p : BitVec 2) (c : Pair), pairOf (putPair v p c) p = c := by
  decide +revert

/-- The other three pairs keep their values (R121). -/
theorem pairOf_putPair_other : ∀ (p q : BitVec 2), q ≠ p → ∀ (v : Byte) (c : Pair), pairOf (putPair v p c) q = pairOf v q := by
  decide +revert

/-- The two bits of a pair are the two switches of its phase (R27). -/
theorem pairOf_eq_iff : ∀ (v : Byte) (p : BitVec 2) (c : Pair),
    pairOf v p = c ↔ (highSide v p = c.getLsbD 1 ∧ lowSide v p = c.getLsbD 0) := by
  decide +revert

/-- Two bytes agree on a phase's pair when they agree on both its switches. -/
theorem pairOf_eq_pairOf_iff (v v' : Byte) (p : BitVec 2) :
    pairOf v p = pairOf v' p ↔ (highSide v p = highSide v' p ∧ lowSide v p = lowSide v' p) := by
  obtain ⟨h1, h2⟩ := (pairOf_eq_iff v' p _).1 rfl
  rw [pairOf_eq_iff, h1, h2]

/-- Both switches of a phase closed is the pair `0b11` (R35). -/
theorem both_closed_iff (v : Byte) (p : BitVec 2) : (highSide v p = true ∧ lowSide v p = true) ↔ pairOf v p = 3#2 := by
  rw [pairOf_eq_iff]
  rfl

/-- Bytes with the same four pairs are equal (R73). -/
theorem eq_of_pairOf_eq {v v' : Byte} (h : ∀ p : BitVec 2, pairOf v p = pairOf v' p) : v = v' := by
  have split (x : Byte) : x = pairOf x 3#2 ++ pairOf x 2#2 ++ pairOf x 1#2 ++ pairOf x 0#2 := by
    revert x
    decide
  rw [split v, split v', h 3#2, h 2#2, h 1#2, h 0#2]

/-- A pair is the reserved one or the pair of an Output State (R71). -/
theorem ofPair_cases (c : Pair) :
    (c = 3#2 ∧ OutputState.ofPair c = none) ∨ (c ≠ 3#2 ∧ ∃ o, OutputState.ofPair c = some o ∧ o.pair = c) := by
  have hc : c = 0#2 ∨ c = 1#2 ∨ c = 2#2 ∨ c = 3#2 := by
    revert c
    decide
  rcases hc with rfl | rfl | rfl | rfl
  · exact .inr ⟨by decide, .floating, rfl, rfl⟩
  · exact .inr ⟨by decide, .driveLow, rfl, rfl⟩
  · exact .inr ⟨by decide, .driveHigh, rfl, rfl⟩
  · exact .inl ⟨rfl, rfl⟩

/-! ### The step mode and the position -/

/-- The two step modes (R74). -/
theorem legalMode_iff (m : BitVec 2) : legalMode m = true ↔ (m = 0b01#2 ∨ m = 0b10#2) := by
  revert m
  decide

/-- An advance stays inside the table (R36, R132). -/
theorem nextPos_lt {m : BitVec 2} (hm : legalMode m = true) (dir : Bool) {pos : Pos} (hp : pos.toNat < (tableLen m).toNat) :
    (nextPos dir m pos).toNat < (tableLen m).toNat := by
  rcases (legalMode_iff m).1 hm with rfl | rfl <;> revert dir pos <;> decide

/-! ### Conditions -/

/-- The exit test of a wait (R93). -/
theorem expired_iff {w : Nat} (tick t0 speedL : BitVec w) :
    expired tick t0 speedL = true ↔ speedL.toNat ≤ (tick - t0).toNat := decide_eq_true_iff

/-- More dead time is left (R111). -/
theorem moreDead_iff {dtw : Nat} (dtc : BitVec dtw) : moreDead dtc = true ↔ 1 < dtc.toNat := decide_eq_true_iff

/-- `TICK +_W 1` as a number (R95). -/
theorem tickSucc_toNat {w : Nat} (tick : BitVec w) : (tickSucc tick).toNat = (tick.toNat + 1) % 2 ^ w := by
  simp [tickSucc, BitVec.toNat_add]

end Sys2Proof.Machine
end

