-- ==== Sys2Proof/Laws/State.lean ====
section
/-! SUPPORT. One lemma per register per update of Machine/Ops.lean, and the fields of the states put together from them,
so that no later proof unfolds a record update. -/

namespace Sys2Proof.Machine

variable {w dtw : Nat} (r : Regs w dtw)

/-! ### `Regs.goto` -/

@[simp] theorem Regs.goto_ctl (c : Ctl) : (r.goto c).ctl = c := rfl
@[simp] theorem Regs.goto_pos (c : Ctl) : (r.goto c).pos = r.pos := rfl
@[simp] theorem Regs.goto_modeL (c : Ctl) : (r.goto c).modeL = r.modeL := rfl
@[simp] theorem Regs.goto_row (c : Ctl) : (r.goto c).row = r.row := rfl
@[simp] theorem Regs.goto_ph (c : Ctl) : (r.goto c).ph = r.ph := rfl
@[simp] theorem Regs.goto_dtc (c : Ctl) : (r.goto c).dtc = r.dtc := rfl
@[simp] theorem Regs.goto_out (c : Ctl) : (r.goto c).out = r.out := rfl
@[simp] theorem Regs.goto_tick (c : Ctl) : (r.goto c).tick = r.tick := rfl
@[simp] theorem Regs.goto_t0 (c : Ctl) : (r.goto c).t0 = r.t0 := rfl
@[simp] theorem Regs.goto_speedL (c : Ctl) : (r.goto c).speedL = r.speedL := rfl
@[simp] theorem Regs.goto_cause (c : Ctl) : (r.goto c).cause = r.cause := rfl

/-! ### `Regs.setPos` -/

@[simp] theorem Regs.setPos_ctl (v : Pos) : (r.setPos v).ctl = r.ctl := rfl
@[simp] theorem Regs.setPos_pos (v : Pos) : (r.setPos v).pos = v := rfl
@[simp] theorem Regs.setPos_modeL (v : Pos) : (r.setPos v).modeL = r.modeL := rfl
@[simp] theorem Regs.setPos_row (v : Pos) : (r.setPos v).row = r.row := rfl
@[simp] theorem Regs.setPos_ph (v : Pos) : (r.setPos v).ph = r.ph := rfl
@[simp] theorem Regs.setPos_dtc (v : Pos) : (r.setPos v).dtc = r.dtc := rfl
@[simp] theorem Regs.setPos_out (v : Pos) : (r.setPos v).out = r.out := rfl
@[simp] theorem Regs.setPos_tick (v : Pos) : (r.setPos v).tick = r.tick := rfl
@[simp] theorem Regs.setPos_t0 (v : Pos) : (r.setPos v).t0 = r.t0 := rfl
@[simp] theorem Regs.setPos_speedL (v : Pos) : (r.setPos v).speedL = r.speedL := rfl
@[simp] theorem Regs.setPos_cause (v : Pos) : (r.setPos v).cause = r.cause := rfl

/-! ### `Regs.latchMode` -/

@[simp] theorem Regs.latchMode_ctl (m : BitVec 2) : (r.latchMode m).ctl = r.ctl := rfl
@[simp] theorem Regs.latchMode_pos (m : BitVec 2) : (r.latchMode m).pos = r.pos := rfl
@[simp] theorem Regs.latchMode_modeL (m : BitVec 2) : (r.latchMode m).modeL = m := rfl
@[simp] theorem Regs.latchMode_row (m : BitVec 2) : (r.latchMode m).row = r.row := rfl
@[simp] theorem Regs.latchMode_ph (m : BitVec 2) : (r.latchMode m).ph = r.ph := rfl
@[simp] theorem Regs.latchMode_dtc (m : BitVec 2) : (r.latchMode m).dtc = r.dtc := rfl
@[simp] theorem Regs.latchMode_out (m : BitVec 2) : (r.latchMode m).out = r.out := rfl
@[simp] theorem Regs.latchMode_tick (m : BitVec 2) : (r.latchMode m).tick = r.tick := rfl
@[simp] theorem Regs.latchMode_t0 (m : BitVec 2) : (r.latchMode m).t0 = r.t0 := rfl
@[simp] theorem Regs.latchMode_speedL (m : BitVec 2) : (r.latchMode m).speedL = r.speedL := rfl
@[simp] theorem Regs.latchMode_cause (m : BitVec 2) : (r.latchMode m).cause = r.cause := rfl

/-! ### `Regs.loadRow` -/

@[simp] theorem Regs.loadRow_ctl (v : Byte) : (r.loadRow v).ctl = r.ctl := rfl
@[simp] theorem Regs.loadRow_pos (v : Byte) : (r.loadRow v).pos = r.pos := rfl
@[simp] theorem Regs.loadRow_modeL (v : Byte) : (r.loadRow v).modeL = r.modeL := rfl
@[simp] theorem Regs.loadRow_row (v : Byte) : (r.loadRow v).row = v := rfl
@[simp] theorem Regs.loadRow_ph (v : Byte) : (r.loadRow v).ph = r.ph := rfl
@[simp] theorem Regs.loadRow_dtc (v : Byte) : (r.loadRow v).dtc = r.dtc := rfl
@[simp] theorem Regs.loadRow_out (v : Byte) : (r.loadRow v).out = r.out := rfl
@[simp] theorem Regs.loadRow_tick (v : Byte) : (r.loadRow v).tick = r.tick := rfl
@[simp] theorem Regs.loadRow_t0 (v : Byte) : (r.loadRow v).t0 = r.t0 := rfl
@[simp] theorem Regs.loadRow_speedL (v : Byte) : (r.loadRow v).speedL = r.speedL := rfl
@[simp] theorem Regs.loadRow_cause (v : Byte) : (r.loadRow v).cause = r.cause := rfl

/-! ### `Regs.setPhase` -/

@[simp] theorem Regs.setPhase_ctl (p : BitVec 2) : (r.setPhase p).ctl = r.ctl := rfl
@[simp] theorem Regs.setPhase_pos (p : BitVec 2) : (r.setPhase p).pos = r.pos := rfl
@[simp] theorem Regs.setPhase_modeL (p : BitVec 2) : (r.setPhase p).modeL = r.modeL := rfl
@[simp] theorem Regs.setPhase_row (p : BitVec 2) : (r.setPhase p).row = r.row := rfl
@[simp] theorem Regs.setPhase_ph (p : BitVec 2) : (r.setPhase p).ph = p := rfl
@[simp] theorem Regs.setPhase_dtc (p : BitVec 2) : (r.setPhase p).dtc = r.dtc := rfl
@[simp] theorem Regs.setPhase_out (p : BitVec 2) : (r.setPhase p).out = r.out := rfl
@[simp] theorem Regs.setPhase_tick (p : BitVec 2) : (r.setPhase p).tick = r.tick := rfl
@[simp] theorem Regs.setPhase_t0 (p : BitVec 2) : (r.setPhase p).t0 = r.t0 := rfl
@[simp] theorem Regs.setPhase_speedL (p : BitVec 2) : (r.setPhase p).speedL = r.speedL := rfl
@[simp] theorem Regs.setPhase_cause (p : BitVec 2) : (r.setPhase p).cause = r.cause := rfl

/-! ### `Regs.setDead` -/

@[simp] theorem Regs.setDead_ctl (n : BitVec dtw) : (r.setDead n).ctl = r.ctl := rfl
@[simp] theorem Regs.setDead_pos (n : BitVec dtw) : (r.setDead n).pos = r.pos := rfl
@[simp] theorem Regs.setDead_modeL (n : BitVec dtw) : (r.setDead n).modeL = r.modeL := rfl
@[simp] theorem Regs.setDead_row (n : BitVec dtw) : (r.setDead n).row = r.row := rfl
@[simp] theorem Regs.setDead_ph (n : BitVec dtw) : (r.setDead n).ph = r.ph := rfl
@[simp] theorem Regs.setDead_dtc (n : BitVec dtw) : (r.setDead n).dtc = n := rfl
@[simp] theorem Regs.setDead_out (n : BitVec dtw) : (r.setDead n).out = r.out := rfl
@[simp] theorem Regs.setDead_tick (n : BitVec dtw) : (r.setDead n).tick = r.tick := rfl
@[simp] theorem Regs.setDead_t0 (n : BitVec dtw) : (r.setDead n).t0 = r.t0 := rfl
@[simp] theorem Regs.setDead_speedL (n : BitVec dtw) : (r.setDead n).speedL = r.speedL := rfl
@[simp] theorem Regs.setDead_cause (n : BitVec dtw) : (r.setDead n).cause = r.cause := rfl

/-! ### `Regs.writePair` -/

@[simp] theorem Regs.writePair_ctl (c : Pair) : (r.writePair c).ctl = r.ctl := rfl
@[simp] theorem Regs.writePair_pos (c : Pair) : (r.writePair c).pos = r.pos := rfl
@[simp] theorem Regs.writePair_modeL (c : Pair) : (r.writePair c).modeL = r.modeL := rfl
@[simp] theorem Regs.writePair_row (c : Pair) : (r.writePair c).row = r.row := rfl
@[simp] theorem Regs.writePair_ph (c : Pair) : (r.writePair c).ph = r.ph := rfl
@[simp] theorem Regs.writePair_dtc (c : Pair) : (r.writePair c).dtc = r.dtc := rfl
@[simp] theorem Regs.writePair_out (c : Pair) : (r.writePair c).out = putPair r.out r.ph c := rfl
@[simp] theorem Regs.writePair_tick (c : Pair) : (r.writePair c).tick = r.tick := rfl
@[simp] theorem Regs.writePair_t0 (c : Pair) : (r.writePair c).t0 = r.t0 := rfl
@[simp] theorem Regs.writePair_speedL (c : Pair) : (r.writePair c).speedL = r.speedL := rfl
@[simp] theorem Regs.writePair_cause (c : Pair) : (r.writePair c).cause = r.cause := rfl

/-! ### `Regs.countTick` -/

@[simp] theorem Regs.countTick_ctl : (r.countTick).ctl = r.ctl := rfl
@[simp] theorem Regs.countTick_pos : (r.countTick).pos = r.pos := rfl
@[simp] theorem Regs.countTick_modeL : (r.countTick).modeL = r.modeL := rfl
@[simp] theorem Regs.countTick_row : (r.countTick).row = r.row := rfl
@[simp] theorem Regs.countTick_ph : (r.countTick).ph = r.ph := rfl
@[simp] theorem Regs.countTick_dtc : (r.countTick).dtc = r.dtc := rfl
@[simp] theorem Regs.countTick_out : (r.countTick).out = r.out := rfl
@[simp] theorem Regs.countTick_tick : (r.countTick).tick = tickSucc r.tick := rfl
@[simp] theorem Regs.countTick_t0 : (r.countTick).t0 = r.t0 := rfl
@[simp] theorem Regs.countTick_speedL : (r.countTick).speedL = r.speedL := rfl
@[simp] theorem Regs.countTick_cause : (r.countTick).cause = r.cause := rfl

/-! ### `Regs.captureWait` -/

@[simp] theorem Regs.captureWait_ctl (d : BitVec w) : (r.captureWait d).ctl = r.ctl := rfl
@[simp] theorem Regs.captureWait_pos (d : BitVec w) : (r.captureWait d).pos = r.pos := rfl
@[simp] theorem Regs.captureWait_modeL (d : BitVec w) : (r.captureWait d).modeL = r.modeL := rfl
@[simp] theorem Regs.captureWait_row (d : BitVec w) : (r.captureWait d).row = r.row := rfl
@[simp] theorem Regs.captureWait_ph (d : BitVec w) : (r.captureWait d).ph = r.ph := rfl
@[simp] theorem Regs.captureWait_dtc (d : BitVec w) : (r.captureWait d).dtc = r.dtc := rfl
@[simp] theorem Regs.captureWait_out (d : BitVec w) : (r.captureWait d).out = r.out := rfl
@[simp] theorem Regs.captureWait_tick (d : BitVec w) : (r.captureWait d).tick = r.tick := rfl
@[simp] theorem Regs.captureWait_t0 (d : BitVec w) : (r.captureWait d).t0 = r.tick := rfl
@[simp] theorem Regs.captureWait_speedL (d : BitVec w) : (r.captureWait d).speedL = d := rfl
@[simp] theorem Regs.captureWait_cause (d : BitVec w) : (r.captureWait d).cause = r.cause := rfl

/-! ### `Regs.haltEntry` -/

@[simp] theorem Regs.haltEntry_ctl (c : Cause) : (r.haltEntry c).ctl = .sHalt := rfl
@[simp] theorem Regs.haltEntry_pos (c : Cause) : (r.haltEntry c).pos = r.pos := rfl
@[simp] theorem Regs.haltEntry_modeL (c : Cause) : (r.haltEntry c).modeL = r.modeL := rfl
@[simp] theorem Regs.haltEntry_row (c : Cause) : (r.haltEntry c).row = r.row := rfl
@[simp] theorem Regs.haltEntry_ph (c : Cause) : (r.haltEntry c).ph = r.ph := rfl
@[simp] theorem Regs.haltEntry_dtc (c : Cause) : (r.haltEntry c).dtc = r.dtc := rfl
@[simp] theorem Regs.haltEntry_out (c : Cause) : (r.haltEntry c).out = 0x00#8 := rfl
@[simp] theorem Regs.haltEntry_tick (c : Cause) : (r.haltEntry c).tick = r.tick := rfl
@[simp] theorem Regs.haltEntry_t0 (c : Cause) : (r.haltEntry c).t0 = r.t0 := rfl
@[simp] theorem Regs.haltEntry_speedL (c : Cause) : (r.haltEntry c).speedL = r.speedL := rfl
@[simp] theorem Regs.haltEntry_cause (c : Cause) : (r.haltEntry c).cause = c := rfl

/-! ### States -/

@[simp] theorem State.withRegs_cfg (s : State) (q : Regs s.cfg.w s.cfg.dtw) : (s.withRegs q).cfg = s.cfg := rfl
@[simp] theorem State.withRegs_regs (s : State) (q : Regs s.cfg.w s.cfg.dtw) : (s.withRegs q).regs = q := rfl
@[simp] theorem State.withRegs_inputs (s : State) (q : Regs s.cfg.w s.cfg.dtw) : (s.withRegs q).inputs = s.inputs := rfl
@[simp] theorem State.withRegs_k (s : State) (q : Regs s.cfg.w s.cfg.dtw) : (s.withRegs q).k = s.k := rfl
@[simp] theorem State.withRegs_ports (s : State) (q : Regs s.cfg.w s.cfg.dtw) : (s.withRegs q).ports = s.ports := rfl
@[simp] theorem State.advance_cfg (s : State) : s.advance.cfg = s.cfg := rfl
@[simp] theorem State.advance_regs (s : State) : s.advance.regs = s.regs := rfl
@[simp] theorem State.advance_inputs (s : State) : s.advance.inputs = s.inputs.drop 1 := rfl
@[simp] theorem State.advance_k (s : State) : s.advance.k = s.k + 1 := rfl
@[simp] theorem State.after_cfg (s : State) (n : Nat) (q : Regs s.cfg.w s.cfg.dtw) : (s.after n q).cfg = s.cfg := rfl
@[simp] theorem State.after_regs (s : State) (n : Nat) (q : Regs s.cfg.w s.cfg.dtw) : (s.after n q).regs = q := rfl
@[simp] theorem State.after_inputs (s : State) (n : Nat) (q : Regs s.cfg.w s.cfg.dtw) :
    (s.after n q).inputs = s.inputs.drop n := rfl
@[simp] theorem State.after_k (s : State) (n : Nat) (q : Regs s.cfg.w s.cfg.dtw) : (s.after n q).k = s.k + n := rfl

/-- Writing registers and then crossing the boundary is being one step after. -/
@[simp] theorem State.advance_withRegs (s : State) (q : Regs s.cfg.w s.cfg.dtw) : (s.withRegs q).advance = s.after 1 q := rfl

/-- No step after is no step at all. -/
theorem State.after_zero (s : State) : s.after 0 s.regs = s := rfl

/-- Steps after add up. -/
theorem State.after_after (s : State) (m n : Nat) (q q' : Regs s.cfg.w s.cfg.dtw) :
    (s.after m q).after n q' = s.after (m + n) q' := by
  simp [State.after, Nat.add_assoc]

/-- States put together with different registers are different. -/
theorem State.withRegs_inj {s : State} {q q' : Regs s.cfg.w s.cfg.dtw} (h : s.withRegs q = s.withRegs q') : q = q' := by
  injection h

/-- States `n` steps after with different registers are different. -/
theorem State.after_inj {s : State} {n : Nat} {q q' : Regs s.cfg.w s.cfg.dtw} (h : s.after n q = s.after n q') : q = q' := by
  injection h

/-- The input values of this step are those presented 0 steps later. -/
theorem State.ports_eq_portsIn (s : State) : s.ports = s.portsIn 0 := rfl

/-- What is presented `j` steps after `n` steps is what is presented `n + j` steps after. -/
@[simp] theorem State.portsIn_after (s : State) (n j : Nat) (q : Regs s.cfg.w s.cfg.dtw) :
    (s.after n q).portsIn j = s.portsIn (n + j) := by
  simp [State.portsIn, List.getElem?_drop, Nat.add_assoc]

/-- What is presented at the step after `n` steps. -/
theorem State.ports_after (s : State) (n : Nat) (q : Regs s.cfg.w s.cfg.dtw) : (s.after n q).ports = s.portsIn n := by
  rw [State.ports_eq_portsIn, State.portsIn_after, Nat.add_zero]

end Sys2Proof.Machine
end

