-- ==== Sys2Proof/Laws/Step.lean ====
section
/-! SUPPORT. What a step and its parts can do, each said once; later proofs cite these and unfold none of them. -/

namespace Sys2Proof.Machine

/-- The instruction a value of `CTL` stands for (R75). -/
def Ctl.instr : Ctl → Instr
  | .sInit => .sInit
  | .sFetch => .sFetch
  | .sBreak => .sBreak
  | .sDead => .sDead
  | .sMake => .sMake
  | .sAdv => .sAdv
  | .sWent => .sWent
  | .sSpin => .sSpin
  | .sHalt => .sHalt

/-- The tick increment as a function of the registers (R90). -/
def Regs.afterTick {w dtw : Nat} (r : Regs w dtw) (p : Ports w) : Regs w dtw := if p.tick then r.countTick else r

@[simp] theorem Regs.afterTick_ctl {w dtw : Nat} (r : Regs w dtw) (p : Ports w) : (r.afterTick p).ctl = r.ctl := by
  unfold Regs.afterTick; split <;> rfl
@[simp] theorem Regs.afterTick_pos {w dtw : Nat} (r : Regs w dtw) (p : Ports w) : (r.afterTick p).pos = r.pos := by
  unfold Regs.afterTick; split <;> rfl
@[simp] theorem Regs.afterTick_modeL {w dtw : Nat} (r : Regs w dtw) (p : Ports w) : (r.afterTick p).modeL = r.modeL := by
  unfold Regs.afterTick; split <;> rfl
@[simp] theorem Regs.afterTick_row {w dtw : Nat} (r : Regs w dtw) (p : Ports w) : (r.afterTick p).row = r.row := by
  unfold Regs.afterTick; split <;> rfl
@[simp] theorem Regs.afterTick_ph {w dtw : Nat} (r : Regs w dtw) (p : Ports w) : (r.afterTick p).ph = r.ph := by
  unfold Regs.afterTick; split <;> rfl
@[simp] theorem Regs.afterTick_dtc {w dtw : Nat} (r : Regs w dtw) (p : Ports w) : (r.afterTick p).dtc = r.dtc := by
  unfold Regs.afterTick; split <;> rfl
@[simp] theorem Regs.afterTick_out {w dtw : Nat} (r : Regs w dtw) (p : Ports w) : (r.afterTick p).out = r.out := by
  unfold Regs.afterTick; split <;> rfl
@[simp] theorem Regs.afterTick_t0 {w dtw : Nat} (r : Regs w dtw) (p : Ports w) : (r.afterTick p).t0 = r.t0 := by
  unfold Regs.afterTick; split <;> rfl
@[simp] theorem Regs.afterTick_speedL {w dtw : Nat} (r : Regs w dtw) (p : Ports w) : (r.afterTick p).speedL = r.speedL := by
  unfold Regs.afterTick; split <;> rfl
@[simp] theorem Regs.afterTick_cause {w dtw : Nat} (r : Regs w dtw) (p : Ports w) : (r.afterTick p).cause = r.cause := by
  unfold Regs.afterTick; split <;> rfl
theorem Regs.afterTick_tick {w dtw : Nat} (r : Regs w dtw) (p : Ports w) :
    (r.afterTick p).tick = if p.tick then tickSucc r.tick else r.tick := by
  unfold Regs.afterTick; split <;> rfl

/-- The tick increment and any other update of registers that keeps `TICK` meet only in `TICK`. -/
theorem Regs.afterTick_eq {w dtw : Nat} (r : Regs w dtw) (p : Ports w) :
    r.afterTick p = { r with tick := if p.tick then tickSucc r.tick else r.tick } := by
  unfold Regs.afterTick; split <;> rfl

/-! ### What the words of a step decode to -/

/-- The code of `CTL` decodes to its micro-operation. -/
theorem decode_ctlWord (s : State) : decode .ctl4 s.ctlWord = .ok (Ctl.instr s.regs.ctl) := by
  unfold State.ctlWord
  cases s.regs.ctl <;> decide

/-- Port `rst` selects RESET or nothing. -/
theorem decode_rstWord (s : State) :
    decode .rstPort s.rstWord = if s.ports.rst then .ok .reset else .error .notSelected := by
  unfold State.rstWord
  cases s.ports.rst <;> decide

/-- Port `tick` selects TICKINC or nothing. -/
theorem decode_tickWord (s : State) :
    decode .tickPort s.tickWord = if s.ports.tick then .ok .tickInc else .error .notSelected := by
  unfold State.tickWord
  cases s.ports.tick <;> decide

/-! ### The parts of a step -/

/-- If the first part goes on and the second does, the whole does, and in no other way. -/
theorem andThen_eq_next {o : Host.Outcome State Fault Refusal} {f : State → Host.Outcome State Fault Refusal} {t : State} :
    andThen o f = .next t ↔ ∃ s, o = .next s ∧ f s = .next t := by
  cases o <;> simp [andThen]

@[simp] theorem andThen_next (s : State) (f : State → Host.Outcome State Fault Refusal) : andThen (.next s) f = f s := rfl

/-- The tick part counts or does nothing. -/
theorem tickPart_withRegs (s : State) (r : Regs s.cfg.w s.cfg.dtw) :
    tickPart s (s.withRegs r) = .next (s.withRegs (r.afterTick s.ports)) := by
  unfold tickPart
  rw [decode_tickWord]
  unfold Regs.afterTick
  cases s.ports.tick <;> rfl

/-- A step without reset, where the micro-operation has a next state. -/
theorem step_of_exec {s : State} {r : Regs s.cfg.w s.cfg.dtw} (ha : s.cfg.admitted = true) (hr : s.ports.rst = false)
    (he : exec (Ctl.instr s.regs.ctl) s = .next (s.withRegs r)) : step s = .next (s.after 1 (r.afterTick s.ports)) := by
  unfold step cycle microStep
  rw [if_pos ha, decode_rstWord, hr, decode_ctlWord]
  simp only [Bool.false_eq_true, if_false, he, andThen_next, tickPart_withRegs]

/-- A step with reset. -/
theorem step_of_rst {s : State} (ha : s.cfg.admitted = true) (hr : s.ports.rst = true) :
    step s = .next (s.after 1 (Regs.reset s.cfg.w s.cfg.dtw)) := by
  unfold step cycle
  rw [if_pos ha, decode_rstWord, hr]
  rfl

/-- No meaning writes anything but registers. -/
theorem exec_next_withRegs {i : Instr} {s t : State} (h : exec i s = .next t) :
    ∃ r : Regs s.cfg.w s.cfg.dtw, t = s.withRegs r := by
  have inv : ∀ {r : Regs s.cfg.w s.cfg.dtw}, Host.Outcome.next (s.withRegs r) = (.next t : Host.Outcome State Fault Refusal) →
      ∃ r : Regs s.cfg.w s.cfg.dtw, t = s.withRegs r := by
    intro r e
    cases e
    exact ⟨r, rfl⟩
  cases i
  case sInit =>
    change execSInit s = .next t at h
    unfold execSInit at h
    split at h
    · split at h <;> exact inv h
    · exact inv h
  case sDead =>
    change execSDead s = .next t at h
    unfold execSDead at h
    split at h <;> exact inv h
  case sMake =>
    change execSMake s = .next t at h
    unfold execSMake at h
    split at h
    · cases h
    · split at h <;> exact inv h
  case sWent =>
    change execSWent s = .next t at h
    unfold execSWent at h
    split at h <;> exact inv h
  case sSpin =>
    change execSSpin s = .next t at h
    unfold execSSpin at h
    split at h
    · exact inv h
    · split at h <;> exact inv h
  case row dd cc bb aa =>
    change execRow dd cc bb aa s = .next t at h
    unfold execRow at h
    split at h
    · exact inv h
    · cases h
  all_goals exact inv h

/-- What a step can do: it resets, or it runs the micro-operation of `CTL` and then counts the tick. -/
theorem step_next_cases {s t : State} (h : step s = .next t) :
    s.cfg.admitted = true ∧
      ((s.ports.rst = true ∧ t = s.after 1 (Regs.reset s.cfg.w s.cfg.dtw)) ∨
        (s.ports.rst = false ∧ ∃ r : Regs s.cfg.w s.cfg.dtw,
          exec (Ctl.instr s.regs.ctl) s = .next (s.withRegs r) ∧ t = s.after 1 (r.afterTick s.ports))) := by
  have ha : s.cfg.admitted = true := by
    by_contra hn
    unfold step at h
    rw [if_neg hn] at h
    cases h
  refine ⟨ha, ?_⟩
  cases hr : s.ports.rst with
  | true =>
    rw [step_of_rst ha hr] at h
    cases h
    exact .inl ⟨rfl, rfl⟩
  | false =>
    have h' := h
    unfold step cycle microStep at h'
    rw [if_pos ha, decode_rstWord, hr, decode_ctlWord] at h'
    simp only [Bool.false_eq_true, if_false] at h'
    obtain ⟨u, hu, -⟩ := andThen_eq_next.1 h'
    obtain ⟨v, hv, -⟩ := andThen_eq_next.1 hu
    obtain ⟨r, rfl⟩ := exec_next_withRegs hv
    rw [step_of_exec ha hr hv] at h
    cases h
    exact .inr ⟨rfl, r, hv, rfl⟩

/-! ### Runs -/

/-- A run of `m + n` steps is a run of `m` and then one of `n`. -/
theorem runs_add (m n : Nat) : ∀ s : State, runs (m + n) s = andThen (runs m s) (runs n) := by
  induction m with
  | zero => intro s; simp [runs]
  | succ m ih =>
    intro s
    rw [Nat.succ_add]
    unfold runs
    cases step s with
    | next t => exact ih t
    | fault e => rfl
    | refused r => rfl

/-- One step. -/
theorem runs_one (s : State) : runs 1 s = step s := by
  unfold runs
  cases step s <;> rfl

end Sys2Proof.Machine
end

