-- ==== Sys2Proof/Laws/Exec.lean ====
section
/-! SUPPORT. What one micro-operation can do, said once for the nine of them (spec/42_step_sequencer.md R136): every
later invariant is a case analysis over `MicroEffect`. -/

namespace Sys2Proof.Machine

/-- The registers `r` are what the micro-operation of `CTL` can leave of the registers of `s`, the tick apart. -/
def MicroEffect (s : State) (r : Regs s.cfg.w s.cfg.dtw) : Prop :=
  match s.regs.ctl with
  | .sInit =>
    (legalMode s.ports.mode = true ∧ s.ports.speed ≠ 0#s.cfg.w ∧ r = (s.regs.latchMode s.ports.mode).goto .sFetch) ∨
      (legalMode s.ports.mode = true ∧ s.ports.speed = 0#s.cfg.w ∧ r = s.regs.haltEntry .badSpeed) ∨
      (legalMode s.ports.mode = false ∧ r = s.regs.haltEntry .badMode)
  | .sFetch =>
    r = ((s.regs.loadRow (s.cfg.rom.read (romAddr s.regs.modeL s.regs.pos))).setPhase 0#2).goto .sBreak
  | .sBreak => r = ((s.regs.writePair 0b00#2).setDead s.cfg.dt).goto .sDead
  | .sDead =>
    (1 < s.regs.dtc.toNat ∧ r = (s.regs.setDead (s.regs.dtc - 1#s.cfg.dtw)).goto .sDead) ∨
      (s.regs.dtc.toNat ≤ 1 ∧ r = (s.regs.setDead 0#s.cfg.dtw).goto .sMake)
  | .sMake =>
    pairOf s.regs.row s.regs.ph ≠ 3#2 ∧
      ((s.regs.ph = 3#2 ∧ r = (s.regs.writePair (pairOf s.regs.row s.regs.ph)).goto .sAdv) ∨
        (s.regs.ph ≠ 3#2 ∧
          r = ((s.regs.writePair (pairOf s.regs.row s.regs.ph)).setPhase (s.regs.ph + 1#2)).goto .sBreak))
  | .sAdv => r = (s.regs.setPos (nextPos s.ports.dir s.regs.modeL s.regs.pos)).goto .sWent
  | .sWent =>
    (s.ports.speed ≠ 0#s.cfg.w ∧ r = (s.regs.captureWait s.ports.speed).goto .sSpin) ∨
      (s.ports.speed = 0#s.cfg.w ∧ r = s.regs.haltEntry .badSpeed)
  | .sSpin =>
    (s.ports.stop = true ∧ r = s.regs.haltEntry .stop) ∨
      (s.ports.stop = false ∧ expired s.regs.tick s.regs.t0 s.regs.speedL = true ∧ r = s.regs.goto .sFetch) ∨
      (s.ports.stop = false ∧ expired s.regs.tick s.regs.t0 s.regs.speedL = false ∧ r = s.regs.goto .sSpin)
  | .sHalt => r = s.regs.goto .sHalt

/-- A micro-operation that has a next state has one of its effects. -/
theorem microEffect_of_exec {s : State} {r : Regs s.cfg.w s.cfg.dtw}
    (h : exec (Ctl.instr s.regs.ctl) s = .next (s.withRegs r)) : MicroEffect s r := by
  have inv : ∀ {q : Regs s.cfg.w s.cfg.dtw},
      Host.Outcome.next (s.withRegs q) = (.next (s.withRegs r) : Host.Outcome State Fault Refusal) → r = q := by
    intro q e
    injection e with e
    exact (State.withRegs_inj e).symm
  unfold MicroEffect
  cases hc : s.regs.ctl <;> rw [hc] at h <;> dsimp only
  case sInit =>
    change execSInit s = _ at h
    unfold execSInit at h
    split at h
    · rename_i hm
      split at h
      · rename_i hs; exact .inr (.inl ⟨hm, hs, inv h⟩)
      · rename_i hs; exact .inl ⟨hm, hs, inv h⟩
    · rename_i hm; exact .inr (.inr ⟨by simpa using hm, inv h⟩)
  case sDead =>
    change execSDead s = _ at h
    unfold execSDead at h
    split at h
    · rename_i hd; exact .inl ⟨(moreDead_iff _).1 hd, inv h⟩
    · rename_i hd; rw [moreDead_iff] at hd; exact .inr ⟨by omega, inv h⟩
  case sMake =>
    change execSMake s = _ at h
    unfold execSMake at h
    obtain ⟨-, hn⟩ | ⟨hne, c, hs, hp⟩ := ofPair_cases (pairOf s.regs.row s.regs.ph)
    · rw [hn] at h; cases h
    · rw [hs] at h
      dsimp only at h
      rw [hp] at h
      refine ⟨hne, ?_⟩
      split at h
      · rename_i h3; exact .inl ⟨h3, inv h⟩
      · rename_i h3; exact .inr ⟨h3, inv h⟩
  case sWent =>
    change execSWent s = _ at h
    unfold execSWent at h
    split at h
    · rename_i hs; exact .inr ⟨hs, inv h⟩
    · rename_i hs; exact .inl ⟨hs, inv h⟩
  case sSpin =>
    change execSSpin s = _ at h
    unfold execSSpin at h
    split at h
    · rename_i hs; exact .inl ⟨hs, inv h⟩
    · rename_i hs
      split at h
      · rename_i he; exact .inr (.inl ⟨by simpa using hs, he, inv h⟩)
      · rename_i he; exact .inr (.inr ⟨by simpa using hs, by simpa using he, inv h⟩)
  all_goals exact inv h

/-- What a step does to the registers: reset, or one effect of the micro-operation and then the tick. -/
theorem step_regs_cases {s : State} {r : Regs s.cfg.w s.cfg.dtw} (h : step s = .next (s.after 1 r)) :
    (s.ports.rst = true ∧ r = Regs.reset s.cfg.w s.cfg.dtw) ∨
      (s.ports.rst = false ∧ ∃ q, MicroEffect s q ∧ r = q.afterTick s.ports) := by
  obtain ⟨-, ⟨hr, ht⟩ | ⟨hr, q, he, ht⟩⟩ := step_next_cases h
  · exact .inl ⟨hr, State.after_inj ht⟩
  · exact .inr ⟨hr, q, microEffect_of_exec he, State.after_inj ht⟩

end Sys2Proof.Machine
end

