-- ==== Sys2Proof/Laws/Memory.lean ====
section
/-! SUPPORT. The laws of the ROM: what a write leaves, and that every operation keeps the canonical form. -/

namespace Sys2Proof

/-- A smaller lower bound is a weaker form. -/
theorem Memory.wfFrom_mono {lo lo' : Nat} (h : lo' ≤ lo) : ∀ {m : Memory}, Memory.wfFrom lo m = true → Memory.wfFrom lo' m = true
  | [], _ => rfl
  | (a, b) :: rest, hm => by
    simp only [Memory.wfFrom, Bool.and_eq_true, decide_eq_true_eq] at hm ⊢
    exact ⟨⟨⟨by omega, hm.1.1.2⟩, hm.1.2⟩, hm.2⟩

/-- No address below the bound is listed. -/
theorem Memory.find?_eq_none_of_lt {a : Nat} : ∀ {m : Memory} {lo : Nat}, Memory.wfFrom lo m = true → a < lo → Memory.find? m a = none
  | [], _, _, _ => rfl
  | (x, b) :: rest, lo, hm, ha => by
    simp only [Memory.wfFrom, Bool.and_eq_true, decide_eq_true_eq] at hm
    have hx : x ≠ a := by omega
    simp only [Memory.find?, if_neg hx]
    exact Memory.find?_eq_none_of_lt hm.2 (by omega)

/-- Listing a word at a populated address, other than the default, keeps the form. -/
theorem Memory.insert_wfFrom {a : Nat} {b : Byte} (ha : a < romPopulated) (hb : b ≠ tableDefault a) :
    ∀ {m : Memory} {lo : Nat}, Memory.wfFrom lo m = true → lo ≤ a → Memory.wfFrom lo (Memory.insert m a b) = true
  | [], lo, _, hlo => by simp [Memory.insert, Memory.wfFrom, ha, hb, hlo]
  | (x, c) :: rest, lo, hm, hlo => by
    simp only [Memory.wfFrom, Bool.and_eq_true, decide_eq_true_eq] at hm
    obtain ⟨⟨⟨h1, h2⟩, h3⟩, h4⟩ := hm
    unfold Memory.insert
    split
    · rename_i hax
      simp only [Memory.wfFrom, Bool.and_eq_true, decide_eq_true_eq, bne_iff_ne]
      exact ⟨⟨⟨hlo, ha⟩, hb⟩, ⟨⟨⟨by omega, h2⟩, by simpa using h3⟩, h4⟩⟩
    · split
      · rename_i hax
        subst hax
        simp only [Memory.wfFrom, Bool.and_eq_true, decide_eq_true_eq, bne_iff_ne]
        exact ⟨⟨⟨hlo, ha⟩, hb⟩, h4⟩
      · simp only [Memory.wfFrom, Bool.and_eq_true, decide_eq_true_eq, bne_iff_ne]
        exact ⟨⟨⟨h1, h2⟩, by simpa using h3⟩, Memory.insert_wfFrom ha hb h4 (by omega)⟩

/-- Unlisting an address keeps the form. -/
theorem Memory.erase_wfFrom {a : Nat} :
    ∀ {m : Memory} {lo : Nat}, Memory.wfFrom lo m = true → Memory.wfFrom lo (Memory.erase m a) = true
  | [], _, _ => rfl
  | (x, c) :: rest, lo, hm => by
    have hm' := hm
    simp only [Memory.wfFrom, Bool.and_eq_true, decide_eq_true_eq] at hm'
    obtain ⟨⟨⟨h1, h2⟩, h3⟩, h4⟩ := hm'
    unfold Memory.erase
    split
    · exact Memory.wfFrom_mono (by omega) h4
    · simp only [Memory.wfFrom, Bool.and_eq_true, decide_eq_true_eq]
      exact ⟨⟨⟨h1, h2⟩, h3⟩, Memory.erase_wfFrom h4⟩

/-- The one write of the ROM keeps the canonical form. -/
theorem Memory.write_wf {m : Memory} (a : RomAddr) (b : Byte) (h : m.wf = true) : (m.write a b).wf = true := by
  unfold Memory.write
  split
  · rename_i ha
    split
    · exact Memory.erase_wfFrom h
    · rename_i hb
      exact Memory.insert_wfFrom ha hb h (Nat.zero_le _)
  · exact h

/-- A listed word is found. -/
theorem Memory.find?_insert_self {a : Nat} {b : Byte} : ∀ {m : Memory}, Memory.find? (Memory.insert m a b) a = some b
  | [] => by simp [Memory.insert, Memory.find?]
  | (x, c) :: rest => by
    unfold Memory.insert
    split
    · simp [Memory.find?]
    · split
      · simp [Memory.find?]
      · rename_i _ hne
        have : x ≠ a := fun e => hne e.symm
        simp only [Memory.find?, if_neg this]
        exact Memory.find?_insert_self

/-- Listing a word changes no other address. -/
theorem Memory.find?_insert_other {a a' : Nat} {b : Byte} (h : a' ≠ a) :
    ∀ {m : Memory}, Memory.find? (Memory.insert m a b) a' = Memory.find? m a'
  | [] => by simp [Memory.insert, Memory.find?, h.symm]
  | (x, c) :: rest => by
    unfold Memory.insert
    split
    · simp [Memory.find?, h.symm]
    · split
      · rename_i _ hax
        subst hax
        simp [Memory.find?, h.symm]
      · simp only [Memory.find?]
        split
        · rfl
        · exact Memory.find?_insert_other h

/-- An unlisted address is not found. -/
theorem Memory.find?_erase_self {a : Nat} :
    ∀ {m : Memory} {lo : Nat}, Memory.wfFrom lo m = true → Memory.find? (Memory.erase m a) a = none
  | [], _, _ => rfl
  | (x, c) :: rest, lo, hm => by
    simp only [Memory.wfFrom, Bool.and_eq_true, decide_eq_true_eq] at hm
    unfold Memory.erase
    split
    · rename_i hx
      exact Memory.find?_eq_none_of_lt hm.2 (by omega)
    · rename_i hx
      simp only [Memory.find?, if_neg hx]
      exact Memory.find?_erase_self hm.2

/-- Unlisting an address changes no other address. -/
theorem Memory.find?_erase_other {a a' : Nat} (h : a' ≠ a) :
    ∀ {m : Memory}, Memory.find? (Memory.erase m a) a' = Memory.find? m a'
  | [] => rfl
  | (x, c) :: rest => by
    unfold Memory.erase
    split
    · rename_i hx
      subst hx
      simp [Memory.find?, h.symm]
    · simp only [Memory.find?]
      split
      · rfl
      · exact Memory.find?_erase_other h

/-- A populated address reads as what was written to it last. -/
theorem Memory.read_write_self {m : Memory} (a : RomAddr) (b : Byte) (h : m.wf = true) (ha : a.toNat < romPopulated) :
    (m.write a b).read a = b := by
  unfold Memory.write Memory.read
  rw [if_pos ha, if_pos ha]
  split
  · rename_i hb
    rw [Memory.find?_erase_self h, Option.getD_none, hb]
  · rw [Memory.find?_insert_self, Option.getD_some]

/-- A write leaves every other address alone. -/
theorem Memory.read_write_other {m : Memory} (a a' : RomAddr) (b : Byte) (h : a' ≠ a) :
    (m.write a b).read a' = m.read a' := by
  have hn : a'.toNat ≠ a.toNat := fun e => h (BitVec.eq_of_toNat_eq e)
  unfold Memory.write Memory.read
  split
  · split
    · split
      · rw [Memory.find?_erase_other hn]
      · rw [Memory.find?_insert_other hn]
    · rfl
  · rfl

end Sys2Proof
end

