-- ==== Sys2Proof/Laws/PerInstr.lean ====
section
/-! SUPPORT. The per-instruction family `EncodingFits`: the word of an instruction fits the width of its format (the
column LEN of the opcode table, spec/30_encoding.md R70). -/

namespace Sys2Proof.Laws

/-- The encoded word has no bit above the width of the instruction's format. -/
def EncodingFits.Statement (i : Instr) : Prop := (encode i).toNat < 2 ^ i.format.width

theorem EncodingFits.sInit : EncodingFits.Statement .sInit := by unfold EncodingFits.Statement; decide
theorem EncodingFits.sFetch : EncodingFits.Statement .sFetch := by unfold EncodingFits.Statement; decide
theorem EncodingFits.sBreak : EncodingFits.Statement .sBreak := by unfold EncodingFits.Statement; decide
theorem EncodingFits.sDead : EncodingFits.Statement .sDead := by unfold EncodingFits.Statement; decide
theorem EncodingFits.sMake : EncodingFits.Statement .sMake := by unfold EncodingFits.Statement; decide
theorem EncodingFits.sAdv : EncodingFits.Statement .sAdv := by unfold EncodingFits.Statement; decide
theorem EncodingFits.sWent : EncodingFits.Statement .sWent := by unfold EncodingFits.Statement; decide
theorem EncodingFits.sSpin : EncodingFits.Statement .sSpin := by unfold EncodingFits.Statement; decide
theorem EncodingFits.sHalt : EncodingFits.Statement .sHalt := by unfold EncodingFits.Statement; decide
theorem EncodingFits.float : EncodingFits.Statement .float := by unfold EncodingFits.Statement; decide
theorem EncodingFits.dLow : EncodingFits.Statement .dLow := by unfold EncodingFits.Statement; decide
theorem EncodingFits.dHigh : EncodingFits.Statement .dHigh := by unfold EncodingFits.Statement; decide
theorem EncodingFits.row (dd cc bb aa : Pair) : EncodingFits.Statement (.row dd cc bb aa) :=
  (encode (.row dd cc bb aa)).isLt
theorem EncodingFits.tickInc : EncodingFits.Statement .tickInc := by unfold EncodingFits.Statement; decide
theorem EncodingFits.reset : EncodingFits.Statement .reset := by unfold EncodingFits.Statement; decide
theorem EncodingFits.modeFull : EncodingFits.Statement .modeFull := by unfold EncodingFits.Statement; decide
theorem EncodingFits.modeHalf : EncodingFits.Statement .modeHalf := by unfold EncodingFits.Statement; decide

end Sys2Proof.Laws
end

