-- ==== Sys2Proof/Laws/Runs.lean ====
section
/-! SUPPORT. How runs are put together from their parts, and what the host presents to the parts. -/

namespace Sys2Proof.Machine

/-- A run that goes on: `m` steps and then `n` steps are `m + n` steps. -/
theorem runs_trans {s : State} {m n : Nat} {q : Regs s.cfg.w s.cfg.dtw} {q' : Regs s.cfg.w s.cfg.dtw}
    (h : runs m s = .next (s.after m q)) (h' : runs n (s.after m q) = .next ((s.after m q).after n q')) :
    runs (m + n) s = .next (s.after (m + n) q') := by
  rw [runs_add, h, andThen_next, h', State.after_after]

/-- A run with one step more at its end. -/
theorem runs_snoc {s : State} {n : Nat} {q q' : Regs s.cfg.w s.cfg.dtw} (h : runs n s = .next (s.after n q))
    (h' : step (s.after n q) = .next ((s.after n q).after 1 q')) : runs (n + 1) s = .next (s.after (n + 1) q') :=
  runs_trans h (by rw [runs_one, h'])

/-- A step without reset at the end of a run, where the micro-operation has a next state. -/
theorem runs_snoc_exec {s : State} {n : Nat} {q q' : Regs s.cfg.w s.cfg.dtw} (ha : s.cfg.admitted = true)
    (h : runs n s = .next (s.after n q)) (hr : (s.portsIn n).rst = false)
    (he : exec (Ctl.instr q.ctl) (s.after n q) = .next ((s.after n q).withRegs q')) :
    runs (n + 1) s = .next (s.after (n + 1) (q'.afterTick (s.portsIn n))) := by
  have hs := step_of_exec (s := s.after n q) (r := q') ha (by rw [State.ports_after]; exact hr) he
  rw [State.ports_after] at hs
  exact runs_snoc h hs

/-- Ticks of a run are those of its first part and those of its second. -/
theorem ticksIn_add (s : State) (m n : Nat) (q : Regs s.cfg.w s.cfg.dtw) :
    s.ticksIn (m + n) = s.ticksIn m + (s.after m q).ticksIn n := by
  induction n with
  | zero => rfl
  | succ n ih =>
    rw [← Nat.add_assoc]
    simp only [State.ticksIn, ih, State.portsIn_after, Nat.add_assoc]

/-- At most one tick a step (C7). -/
theorem ticksIn_succ_le (s : State) (n : Nat) : s.ticksIn (n + 1) ≤ s.ticksIn n + 1 := by
  show s.ticksIn n + _ ≤ _
  split <;> omega

/-- Ticks are never taken back. -/
theorem ticksIn_mono (s : State) {m n : Nat} (h : m ≤ n) : s.ticksIn m ≤ s.ticksIn n := by
  obtain ⟨d, rfl⟩ := Nat.exists_eq_add_of_le h
  rw [ticksIn_add s m d s.regs]
  omega

/-- No reset in a run is no reset in its first part. -/
theorem noReset_mono {s : State} {m n : Nat} (hn : s.noReset n) (h : m ≤ n) : s.noReset m :=
  fun i hi => hn i (Nat.lt_of_lt_of_le hi h)

/-- No reset in a run is no reset in its second part. -/
theorem noReset_after {s : State} {m n : Nat} (q : Regs s.cfg.w s.cfg.dtw) (h : s.noReset (m + n)) :
    (s.after m q).noReset n := by
  intro i hi
  rw [State.portsIn_after]
  exact h (m + i) (by omega)

end Sys2Proof.Machine
end

