-- ==== Sys2Proof/Tests/Slice0.lean ====
section
/-! SUPPORT. The model's own tests: refusals, words written out from spec/30_encoding.md, step vectors of
spec/95_test_vectors.md, and for every obligation with hypotheses states that meet them. -/

namespace Sys2Proof.Tests

open Sys2Proof Sys2Proof.Machine

/-! ### Helpers -/

/-- Ports with nothing asked for but the full-step mode and one tick a step. -/
def quiet : Ports 32 := { rst := false, tick := false, mode := 0b01#2, speed := 1#32, dir := false, stop := false }

/-- The registers right after reset, for the widths of R5. -/
def zero : Regs 32 8 := Regs.reset 32 8

/-- A state of the machine of R5 with one listed input. -/
def stOf (r : Regs 32 8) (p : Ports 32) : State := { cfg := Config.default, regs := r, inputs := [p], k := 0 }

/-- A state of the machine of R5 with `n` equal inputs. -/
def stFor (n : Nat) (r : Regs 32 8) (p : Ports 32) : State :=
  { cfg := Config.default, regs := r, inputs := List.replicate n p, k := 0 }

/-- What `f` reads from a next state. -/
def look {α : Type} (f : State → α) : Host.Outcome State Fault Refusal → Option α
  | .next t => some (f t)
  | .fault _ => none
  | .refused _ => none

/-- The reason of a refusal. -/
def reason : Host.Outcome State Fault Refusal → Option Refusal
  | .next _ => none
  | .fault _ => none
  | .refused e => some e

/-! ### What is refused (R52, R5, R72; the rows of 95_test_vectors.md E2) -/

theorem test_wf_refuses_field_2B : Instr.wellFormed (.row 3#2 0#2 0#2 0#2) = false := by decide
theorem test_wf_refuses_field_2A : Instr.wellFormed (.row 0#2 3#2 0#2 0#2) = false := by decide
theorem test_wf_refuses_field_1B : Instr.wellFormed (.row 0#2 0#2 3#2 0#2) = false := by decide
theorem test_wf_refuses_field_1A : Instr.wellFormed (.row 0#2 0#2 0#2 3#2) = false := by decide
theorem test_row_03_refused : fullRowAdmitted 0x03#8 = false ∧ halfRowAdmitted 0 0x03#8 = false := by decide
theorem test_row_0A_refused : halfRowAdmitted 1 0x0A#8 = false := by decide
theorem test_row_05_refused : halfRowAdmitted 1 0x05#8 = false := by decide
theorem test_row_02_refused : halfRowAdmitted 1 0x02#8 = false := by decide
theorem test_row_60_refused : fullRowAdmitted 0x60#8 = false ∧ halfRowAdmitted 0 0x60#8 = false ∧ halfRowAdmitted 1 0x60#8 = true := by
  decide
theorem test_row_00_refused : halfRowAdmitted 0 0x00#8 = false ∧ halfRowAdmitted 1 0x00#8 = false := by decide
theorem test_w_zero_refused : Config.admitted { Config.default with w := 0 } = false := by decide
theorem test_dtw_zero_refused : Config.admitted { w := 32, dtw := 0, dt := 0#0, rom := [] } = false := by decide
theorem test_dt_zero_refused : Config.admitted { w := 32, dtw := 8, dt := 0#8, rom := [] } = false := by decide
theorem test_table_checked : Config.admitted { Config.default with rom := [(9, 0x60#8)] } = false ∧
    Config.admitted { Config.default with rom := [(1, 0x90#8)] } = true := by decide
theorem test_rom_write_canonical : Memory.write (Memory.write [] 9#4 0x66#8) 2#4 0x99#8 = [(2, 0x99#8), (9, 0x66#8)] ∧
    Memory.write [(2, 0x99#8), (9, 0x66#8)] 9#4 0x69#8 = [(2, 0x99#8)] := by decide

/-! ### Words written out from R71, R72, R74, R75, R90, R170, for every constructor -/

theorem test_decode_ctl4 :
    decode .ctl4 0b0000#8 = .ok .sInit ∧ decode .ctl4 0b0001#8 = .ok .sFetch ∧ decode .ctl4 0b0010#8 = .ok .sBreak ∧
    decode .ctl4 0b0011#8 = .ok .sDead ∧ decode .ctl4 0b0100#8 = .ok .sMake ∧ decode .ctl4 0b0101#8 = .ok .sAdv ∧
    decode .ctl4 0b0110#8 = .ok .sWent ∧ decode .ctl4 0b0111#8 = .ok .sSpin ∧ decode .ctl4 0b1000#8 = .ok .sHalt ∧
    decode .ctl4 0b1001#8 = .error .notAState ∧ decode .ctl4 0b1111#8 = .error .notAState := by decide
theorem test_decode_cmd2 :
    decode .cmd2 0b00#8 = .ok .float ∧ decode .cmd2 0b01#8 = .ok .dLow ∧ decode .cmd2 0b10#8 = .ok .dHigh ∧
    decode .cmd2 0b11#8 = .error .reservedCommand ∧ decode .cmd2 0b100#8 = .error .tooWide := by decide
/-- 95_test_vectors.md 2.1: 0x06 is 1A H, 1B L; 0x99 is L H L H; 0x90 is Z Z L H. -/
theorem test_decode_row8 :
    decode .row8 0x06#8 = .ok (.row 0b00#2 0b00#2 0b01#2 0b10#2) ∧
    decode .row8 0x99#8 = .ok (.row 0b10#2 0b01#2 0b10#2 0b01#2) ∧
    decode .row8 0x90#8 = .ok (.row 0b10#2 0b01#2 0b00#2 0b00#2) ∧
    decode .row8 0x03#8 = .error .reservedCommand ∧ decode .row8 0xC0#8 = .error .reservedCommand := by decide
theorem test_decode_mode2 :
    decode .mode2 0b01#8 = .ok .modeFull ∧ decode .mode2 0b10#8 = .ok .modeHalf ∧
    decode .mode2 0b00#8 = .error .invalidMode ∧ decode .mode2 0b11#8 = .error .invalidMode := by decide
theorem test_decode_ports :
    decode .tickPort 1#8 = .ok .tickInc ∧ decode .rstPort 1#8 = .ok .reset ∧
    decode .tickPort 0#8 = .error .notSelected ∧ decode .rstPort 0#8 = .error .notSelected := by decide
theorem test_assemble :
    rowOfStates .driveHigh .driveLow .floating .floating = 0x06#8 ∧ rowOfCoils .minus .plus = 0x69#8 ∧
    rowOfCoils .off .minus = 0x90#8 ∧ highSide 0x26#8 2#2 = true ∧ lowSide 0x26#8 1#2 = true ∧ lowSide 0x26#8 3#2 = false := by
  decide
theorem test_table_words :
    decodeTableWord 8 0 = some .sInit ∧ decodeTableWord 8 8 = some .sHalt ∧ decodeTableWord 2 2 = some .dHigh ∧
    decodeTableWord 0 0 = some (.row 0#2 0#2 0#2 0#2) ∧ decodeTableWord 8 0x99 = some (.row 2#2 1#2 2#2 1#2) := by decide
theorem test_fetch_word_s_fetch : look (fun t => (t.regs.ctl, t.regs.row)) (step (State.reset.withFetchWord 8 1)) =
    some (.sBreak, 0x66#8) := by decide
theorem test_fetch_word_s_went : look (fun t => (t.regs.ctl, t.regs.speedL.toNat)) (step (State.reset.withFetchWord 8 6)) =
    some (.sSpin, 1) := by decide
theorem test_fetch_word_row : look (fun t => t.regs.row) (step (State.reset.withFetchWord 8 0x99)) = some 0x99#8 := by decide

/-! ### Step vectors of 95_test_vectors.md -/

/-- Q2, Q5. -/
theorem test_s_init_runs :
    look (fun t => (t.regs.modeL, t.regs.ctl)) (step (stOf zero { quiet with mode := 0b10#2, speed := 0xFFFFFFFF#32 })) =
      some (0b10#2, .sFetch) ∧
    look (fun t => (t.regs.modeL, t.regs.cause.code, t.regs.ctl)) (step (stOf zero { quiet with speed := 0#32 })) =
      some (0b00#2, 0b10#2, .sHalt) := by decide
/-- Q4, Q6. -/
theorem test_s_init_bad_mode :
    look (fun t => (t.regs.cause.code, t.regs.ctl)) (step (stOf zero { quiet with mode := 0b11#2, speed := 5#32 })) =
      some (0b01#2, .sHalt) ∧
    look (fun t => (t.regs.cause.code, t.regs.ctl)) (step (stOf zero { quiet with mode := 0b00#2, speed := 0#32 })) =
      some (0b01#2, .sHalt) := by decide
/-- Q7, Q8. -/
theorem test_s_fetch :
    look (fun t => (t.regs.row, t.regs.ph, t.regs.ctl))
      (step (stOf { zero with ctl := .sFetch, modeL := 0b01#2, pos := 1#3, ph := 3#2 } quiet)) = some (0x69#8, 0#2, .sBreak) ∧
    look (fun t => (t.regs.row, t.regs.ph, t.regs.ctl))
      (step (stOf { zero with ctl := .sFetch, modeL := 0b10#2, pos := 1#3, ph := 3#2 } quiet)) = some (0x60#8, 0#2, .sBreak) := by
  decide
/-- PD2. -/
theorem test_s_break : look (fun t => (t.regs.out, t.regs.dtc.toNat, t.regs.ctl))
    (step (stOf { zero with ctl := .sBreak, ph := 3#2, out := 0x69#8 } quiet)) = some (0x29#8, 1, .sDead) := by decide
/-- PD4: `DT = 3`. -/
theorem test_s_break_dt3 : look (fun t => (t.regs.out, t.regs.dtc.toNat, t.regs.ctl))
    (step { cfg := { Config.default with dtw := 8, dt := 3#8 }, regs := { zero with ctl := .sBreak, ph := 2#2, out := 0x06#8 }, inputs := [quiet], k := 0 }) =
      some (0x06#8, 3, .sDead) := by decide
/-- PD6, PD7, PD8. -/
theorem test_s_dead :
    look (fun t => (t.regs.dtc.toNat, t.regs.ctl)) (step (stOf { zero with ctl := .sDead, dtc := 2#8 } quiet)) = some (1, .sDead) ∧
    look (fun t => (t.regs.dtc.toNat, t.regs.ctl)) (step (stOf { zero with ctl := .sDead, dtc := 1#8 } quiet)) = some (0, .sMake) ∧
    look (fun t => (t.regs.dtc.toNat, t.regs.ctl)) (step (stOf { zero with ctl := .sDead, dtc := 0#8 } quiet)) = some (0, .sMake) := by
  decide
/-- PD10, PD12. -/
theorem test_s_make_low_high :
    look (fun t => (t.regs.out, t.regs.ph, t.regs.ctl))
      (step (stOf { zero with ctl := .sMake, row := 0x69#8, ph := 0#2, out := 0x64#8 } quiet)) = some (0x65#8, 1#2, .sBreak) ∧
    look (fun t => (t.regs.out, t.regs.ph, t.regs.ctl))
      (step (stOf { zero with ctl := .sMake, row := 0x69#8, ph := 1#2, out := 0x61#8 } quiet)) = some (0x69#8, 2#2, .sBreak) := by
  decide
/-- PD13, PD14. -/
theorem test_s_make_last_phase :
    look (fun t => (t.regs.out, t.regs.ph, t.regs.ctl))
      (step (stOf { zero with ctl := .sMake, row := 0x66#8, ph := 3#2, out := 0x26#8 } quiet)) = some (0x66#8, 3#2, .sAdv) ∧
    look (fun t => (t.regs.out, t.regs.ph, t.regs.ctl))
      (step (stOf { zero with ctl := .sMake, row := 0x06#8, ph := 3#2, out := 0x06#8 } quiet)) = some (0x06#8, 3#2, .sAdv) := by
  decide
/-- Q10, Q11. -/
theorem test_s_adv_forward :
    look (fun t => (t.regs.pos, t.regs.ctl)) (step (stOf { zero with ctl := .sAdv, modeL := 0b10#2, pos := 3#3 } quiet)) =
      some (4#3, .sWent) ∧
    look (fun t => (t.regs.pos, t.regs.ctl)) (step (stOf { zero with ctl := .sAdv, modeL := 0b01#2, pos := 3#3 } quiet)) =
      some (0#3, .sWent) := by decide
/-- Q13, Q14, Q15. -/
theorem test_s_adv_reverse :
    look (fun t => t.regs.pos) (step (stOf { zero with ctl := .sAdv, modeL := 0b10#2 } { quiet with dir := true })) = some 7#3 ∧
    look (fun t => t.regs.pos) (step (stOf { zero with ctl := .sAdv, modeL := 0b01#2 } { quiet with dir := true })) = some 3#3 ∧
    look (fun t => t.regs.pos) (step (stOf { zero with ctl := .sAdv, modeL := 0b01#2, pos := 2#3 } { quiet with dir := true })) =
      some 1#3 := by decide
/-- T5. -/
theorem test_s_went : look (fun t => (t.regs.t0.toNat, t.regs.speedL.toNat, t.regs.tick.toNat, t.regs.ctl))
    (step (stOf { zero with ctl := .sWent, tick := 15#32 } { quiet with tick := true })) =
      some (15, 1, 16, .sSpin) := by decide
/-- T7. -/
theorem test_s_went_bad_speed : look (fun t => (t.regs.out, t.regs.cause.code, t.regs.ctl, t.regs.pos))
    (step (stOf { zero with ctl := .sWent, out := 0x66#8, pos := 1#3 } { quiet with speed := 0#32 })) =
      some (0x00#8, 0b10#2, .sHalt, 1#3) := by decide
/-- T9, T10, T11. -/
theorem test_s_spin :
    look (fun t => (t.regs.ctl, t.regs.tick.toNat)) (step (stOf { zero with ctl := .sSpin, tick := 15#32, t0 := 15#32, speedL := 1#32 }
      { quiet with tick := true })) = some (.sSpin, 16) ∧
    look (fun t => t.regs.ctl) (step (stOf { zero with ctl := .sSpin, tick := 2#32, t0 := 0xFFFFFFFE#32, speedL := 4#32 } quiet)) =
      some .sFetch ∧
    look (fun t => t.regs.ctl) (step (stOf { zero with ctl := .sSpin, tick := 1#32, t0 := 0xFFFFFFFE#32, speedL := 4#32 } quiet)) =
      some .sSpin := by decide
/-- T12 and X1: STOP wins over expiry, and the tick still counts. -/
theorem test_s_spin_stop : look (fun t => (t.regs.out, t.regs.cause.code, t.regs.ctl, t.regs.tick.toNat))
    (step (stOf { zero with ctl := .sSpin, out := 0x66#8, tick := 16#32, t0 := 15#32, speedL := 1#32 }
      { quiet with stop := true, tick := true })) = some (0x00#8, 0b11#2, .sHalt, 17) := by decide
/-- T13, T14: `W = 4`. -/
theorem test_w4_wrap :
    expired 1#4 15#4 3#4 = false ∧ expired 2#4 15#4 3#4 = true := by decide
/-- Q16, T1. -/
theorem test_s_halt_and_tick :
    look (fun t => (t.regs.ctl, t.regs.cause.code, t.regs.tick.toNat))
      (step (stOf { zero with ctl := .sHalt, cause := .stop, tick := 7#32 } { quiet with tick := true, stop := true, speed := 3#32 })) =
      some (.sHalt, 0b11#2, 8) ∧
    look (fun t => t.regs.tick.toNat) (step (stOf { zero with ctl := .sHalt, cause := .stop, tick := 0xFFFFFFFF#32 } { quiet with tick := true })) =
      some 0 := by decide
/-- X4: reset wins over the micro-operation and the tick. -/
theorem test_reset : look (fun t => (t.regs.ctl, t.regs.out, t.regs.tick.toNat, t.regs.row, t.regs.ph, t.regs.modeL))
    (step (stOf { zero with ctl := .sBreak, ph := 2#2, out := 0x06#8, tick := 8#32, row := 0x66#8, modeL := 0b01#2 }
      { quiet with rst := true, tick := true })) = some (.sInit, 0x00#8, 0, 0x00#8, 0#2, 0b00#2) := by decide
theorem test_commands :
    look (fun t => t.regs.out) (exec .float (stOf { zero with ph := 1#2, out := 0x69#8 } quiet)) = some 0x61#8 ∧
    look (fun t => t.regs.out) (exec .dLow (stOf { zero with ph := 1#2, out := 0x61#8 } quiet)) = some 0x65#8 ∧
    look (fun t => t.regs.out) (exec .dHigh (stOf { zero with ph := 1#2, out := 0x61#8 } quiet)) = some 0x69#8 := by decide
/-- R72, R74, R90 by the rows' own meanings. -/
theorem test_containers_and_tick :
    look (fun t => t.regs.row) (exec (.row 1#2 2#2 2#2 1#2) (stOf zero quiet)) = some 0x69#8 ∧
    look (fun t => t.regs.modeL) (exec .modeFull (stOf zero quiet)) = some 0b01#2 ∧
    look (fun t => t.regs.modeL) (exec .modeHalf (stOf zero quiet)) = some 0b10#2 ∧
    look (fun t => t.regs.tick.toNat) (exec .tickInc (stOf { zero with tick := 0xFFFFFFFF#32 } quiet)) = some 0 := by decide

/-! ### States that meet the hypotheses of the obligations -/

/-! #### Words -/

theorem witness_wellFormed : Instr.wellFormed (.row 2#2 2#2 2#2 2#2) = true ∧ Instr.wellFormed (.row 0#2 0#2 0#2 0#2) = true ∧
    Instr.wellFormed .sInit = true := by decide
theorem witness_decodes : decode .row8 0xAA#8 = .ok (.row 2#2 2#2 2#2 2#2) ∧ decode .row8 0x00#8 = .ok (.row 0#2 0#2 0#2 0#2) := by
  decide

/-! #### One state for each clause of the statements about micro-operations -/

/-- Right after reset: the full-step mode, the half-step mode, no mode, no speed. -/
def runFull : State := stOf zero quiet
@[inherit_doc runFull] def runHalf : State := stOf zero { quiet with mode := 0b10#2, speed := 0xFFFFFFFF#32 }
@[inherit_doc runFull] def badMode : State := stOf zero { quiet with mode := 0b11#2 }
@[inherit_doc runFull] def noSpeed : State := stOf zero { quiet with speed := 0#32 }

theorem witness_sInit :
    (runFull.ports.mode = 0b01#2 ∧ runFull.ports.speed.toNat = 1) ∧
    (runHalf.ports.mode = 0b10#2 ∧ runHalf.ports.speed.toNat = 0xFFFFFFFF) ∧
    (badMode.ports.mode ≠ 0b01#2 ∧ badMode.ports.mode ≠ 0b10#2) ∧
    (noSpeed.ports.mode = 0b01#2 ∧ noSpeed.ports.speed = 0#noSpeed.cfg.w) := by decide
theorem witness_sInit_step : runFull.ports.rst = false ∧
    step runFull = .next (runFull.after 1 { zero with ctl := .sFetch, modeL := 0b01#2 }) := ⟨rfl, rfl⟩

/-- In S_FETCH at the last position of the full-step table, with no line closed. -/
def fetchFull : State := stFor 40 { zero with ctl := .sFetch, modeL := 0b01#2, pos := 3#3 } { quiet with tick := true }
/-- In S_FETCH at the last position of the half-step table, in reverse. -/
def fetchHalf : State := stFor 40 { zero with ctl := .sFetch, modeL := 0b10#2, pos := 7#3, ph := 3#2 } { quiet with dir := true }

theorem witness_sFetch : (fetchHalf.regs.modeL = 0b10#2 ∧ fetchHalf.regs.pos = 7#3) ∧
    (fetchFull.regs.modeL = 0b01#2 ∧ fetchFull.regs.pos.toNat = 3) := by decide

/-- In S_DEAD with `n` steps left. -/
def dead (n : BitVec 8) : State := stOf { zero with ctl := .sDead, dtc := n } quiet

theorem witness_sDead : 1 < (dead 2#8).regs.dtc.toNat ∧ 1 < (dead 255#8).regs.dtc.toNat ∧ (dead 1#8).regs.dtc.toNat ≤ 1 ∧
    (dead 0#8).regs.dtc.toNat ≤ 1 := by decide

/-- In S_MAKE. -/
def make (row : Byte) (ph : BitVec 2) : State := stOf { zero with ctl := .sMake, row := row, ph := ph } quiet

theorem witness_sMake_applies :
    ¬ (highSide (make 0x66#8 3#2).regs.row (make 0x66#8 3#2).regs.ph = true ∧
      lowSide (make 0x66#8 3#2).regs.row (make 0x66#8 3#2).regs.ph = true) ∧
    ¬ (highSide (make 0x66#8 0#2).regs.row (make 0x66#8 0#2).regs.ph = true ∧
      lowSide (make 0x66#8 0#2).regs.row (make 0x66#8 0#2).regs.ph = true) := by decide
theorem witness_sMake_refuses : highSide (make 0xC0#8 3#2).regs.row (make 0xC0#8 3#2).regs.ph = true ∧
    lowSide (make 0xC0#8 3#2).regs.row (make 0xC0#8 3#2).regs.ph = true := by decide
theorem witness_sMake_runs : decode .cmd2 ((pairOf (make 0x66#8 3#2).regs.row (make 0x66#8 3#2).regs.ph).setWidth 8) = .ok .dLow ∧
    exec .dLow (make 0x66#8 3#2) = .next (stOf { zero with ctl := .sMake, row := 0x66#8, ph := 3#2, out := 0x40#8 } quiet) := by
  exact ⟨by decide, rfl⟩

/-- In S_ADV. -/
def adv (m : BitVec 2) (pos : Pos) (dir : Bool) : State :=
  stOf { zero with ctl := .sAdv, modeL := m, pos := pos } { quiet with dir := dir }

theorem witness_sAdv :
    ((adv 0b01#2 3#3 false).regs.modeL = 0b01#2 ∧ (adv 0b01#2 3#3 false).ports.dir = false ∧ (adv 0b01#2 3#3 false).regs.pos.toNat < 4) ∧
    ((adv 0b10#2 0#3 true).regs.modeL = 0b10#2 ∧ (adv 0b10#2 0#3 true).ports.dir = true ∧ (adv 0b10#2 0#3 true).regs.pos.toNat < 8) ∧
    ((adv 0b10#2 7#3 false).regs.modeL = 0b10#2 ∧ (adv 0b10#2 7#3 false).regs.pos.toNat < 8) := by decide
theorem witness_sAdv_no_mode : (adv 0b00#2 0#3 false).regs.modeL = 0b00#2 ∧ (adv 0b11#2 7#3 true).regs.modeL = 0b11#2 := by decide

/-- In S_WENT. -/
def went (speed : BitVec 32) : State := stOf { zero with ctl := .sWent } { quiet with speed := speed }

theorem witness_sWent : (went 1#32).ports.speed ≠ 0#(went 1#32).cfg.w ∧ (went 0#32).ports.speed = 0#(went 0#32).cfg.w := by decide

/-- In S_SPIN, `TICK` and `T0` on either side of the wrap. -/
def spin (tick : BitVec 32) (stop : Bool) : State :=
  stOf { zero with ctl := .sSpin, modeL := 0b01#2, tick := tick, t0 := 0xFFFFFFFE#32, speedL := 4#32 } { quiet with stop := stop }

theorem witness_sSpin :
    ((spin 2#32 false).ports.stop = false ∧
      (spin 2#32 false).regs.speedL.toNat ≤ ((spin 2#32 false).regs.tick - (spin 2#32 false).regs.t0).toNat) ∧
    ((spin 1#32 false).ports.stop = false ∧
      ((spin 1#32 false).regs.tick - (spin 1#32 false).regs.t0).toNat < (spin 1#32 false).regs.speedL.toNat) ∧
    (spin 2#32 true).ports.stop = true := by decide
theorem witness_row : ((2#2 : Pair) ≠ 3#2 ∧ (0#2 : Pair) ≠ 3#2) ∧ Pair.isCommand 3#2 = false := by decide
theorem witness_exec : exec .sHalt runFull = .next (stOf { zero with ctl := .sHalt } quiet) := rfl

/-! #### The step -/

/-- In S_BREAK of phase 1A. -/
def brk (p : Ports 32) : State := stOf { zero with ctl := .sBreak, modeL := 0b01#2, row := 0x66#8, out := 0x66#8 } p

theorem witness_step_runs : (brk quiet).cfg.admitted = true ∧ (brk quiet).ports.rst = false ∧ (brk quiet).ports.tick = false ∧
    decode .ctl4 ((brk quiet).regs.ctl.code.setWidth 8) = .ok .sBreak ∧
    exec .sBreak (brk quiet) =
      .next (stOf { zero with ctl := .sDead, modeL := 0b01#2, row := 0x66#8, out := 0x64#8, dtc := 1#8 } quiet) :=
  ⟨by decide, rfl, rfl, by decide, rfl⟩
theorem witness_step_runs_tick : (brk { quiet with tick := true }).ports.tick = true ∧
    exec .tickInc (stOf { zero with ctl := .sDead } { quiet with tick := true }) =
      .next (stOf { zero with ctl := .sDead, tick := 1#32 } { quiet with tick := true }) := ⟨rfl, rfl⟩
theorem witness_step_refused : (make 0xC0#8 3#2).cfg.admitted = true ∧ (make 0xC0#8 3#2).ports.rst = false ∧
    decode .ctl4 ((make 0xC0#8 3#2).regs.ctl.code.setWidth 8) = .ok .sMake ∧
    exec .sMake (make 0xC0#8 3#2) = .refused .reservedCommand := ⟨by decide, rfl, by decide, rfl⟩
theorem witness_reset_step : (brk { quiet with rst := true }).ports.rst = true ∧
    exec .reset (brk { quiet with rst := true }) = .next (stOf zero { quiet with rst := true }) ∧
    step (brk { quiet with rst := true }) = .next ((brk { quiet with rst := true }).after 1 zero) := ⟨rfl, rfl, rfl⟩

/-- Halted by a stop request. -/
def halted : State := stFor 40 { zero with ctl := .sHalt, modeL := 0b01#2, cause := .stop } { quiet with tick := true }

theorem witness_halt_step : halted.ports.rst = false ∧ halted.regs.ctl = .sHalt ∧
    step halted = .next (halted.after 1 { zero with ctl := .sHalt, modeL := 0b01#2, cause := .stop, tick := 1#32 }) :=
  ⟨rfl, rfl, rfl⟩
/-- The register each clause speaks of does change: POS, MODE_L, ROW, PH, DTC, OUT, TICK, T0, SPEED_L, CAUSE. -/
theorem witness_writers :
    look (fun t => t.regs.pos) (step (adv 0b01#2 2#3 false)) = some 3#3 ∧
    look (fun t => t.regs.modeL) (step runFull) = some 0b01#2 ∧
    look (fun t => t.regs.row) (step fetchFull) = some 0x96#8 ∧
    look (fun t => t.regs.ph) (step (make 0x66#8 0#2)) = some 1#2 ∧
    look (fun t => t.regs.dtc.toNat) (step (brk quiet)) = some 1 ∧
    look (fun t => t.regs.out) (step (brk quiet)) = some 0x64#8 ∧
    look (fun t => t.regs.tick.toNat) (step (brk { quiet with tick := true })) = some 1 ∧
    look (fun t => (t.regs.t0.toNat, t.regs.speedL.toNat))
      (step (stOf { zero with ctl := .sWent, tick := 5#32 } quiet)) = some (5, 1) ∧
    look (fun t => t.regs.cause) (step (spin 2#32 true)) = some .stop := by decide
theorem witness_tick_twice :
    step ⟨Config.default, { zero with ctl := .sHalt }, [{ quiet with tick := false }], 0⟩ =
      .next ⟨Config.default, { zero with ctl := .sHalt }, [], 1⟩ ∧
    step ⟨Config.default, { zero with ctl := .sHalt }, [{ quiet with tick := true }], 0⟩ =
      .next ⟨Config.default, { zero with ctl := .sHalt, tick := 1#32 }, [], 1⟩ := ⟨rfl, rfl⟩
theorem witness_tick_reset :
    step ⟨Config.default, { zero with ctl := .sHalt }, [{ quiet with rst := true, tick := false }], 0⟩ =
      .next ⟨Config.default, zero, [], 1⟩ ∧
    step ⟨Config.default, { zero with ctl := .sHalt }, [{ quiet with rst := true, tick := true }], 0⟩ =
      .next ⟨Config.default, zero, [], 1⟩ := ⟨rfl, rfl⟩
/-- Two different input vectors that agree on all that S_WENT looks at. -/
theorem witness_ports : quiet ≠ { quiet with mode := 0b11#2, dir := true, stop := true } ∧
    quiet.rst = ({ quiet with mode := 0b11#2, dir := true, stop := true } : Ports 32).rst ∧
    quiet.tick = ({ quiet with mode := 0b11#2, dir := true, stop := true } : Ports 32).tick ∧
    quiet.speed = ({ quiet with mode := 0b11#2, dir := true, stop := true } : Ports 32).speed ∧
    (went 1#32).regs.ctl = .sWent := by decide
/-- The four ways into S_HALT. -/
theorem witness_halt_entry :
    step badMode = .next (badMode.after 1 { zero with ctl := .sHalt, cause := .badMode }) ∧
    step noSpeed = .next (noSpeed.after 1 { zero with ctl := .sHalt, cause := .badSpeed }) ∧
    step (went 0#32) = .next ((went 0#32).after 1 { zero with ctl := .sHalt, cause := .badSpeed }) ∧
    step (spin 2#32 true) = .next ((spin 2#32 true).after 1
      { zero with ctl := .sHalt, modeL := 0b01#2, tick := 2#32, t0 := 0xFFFFFFFE#32, speedL := 4#32, cause := .stop }) :=
  ⟨rfl, rfl, rfl, rfl⟩
theorem witness_loop : (spin 2#32 false).ports.rst = false ∧ (spin 2#32 false).regs.ctl = .sSpin ∧ (spin 2#32 false).ports.stop = false ∧
    step (spin 2#32 false) = .next ((spin 2#32 false).after 1
      { zero with ctl := .sFetch, modeL := 0b01#2, tick := 2#32, t0 := 0xFFFFFFFE#32, speedL := 4#32 }) := ⟨rfl, rfl, rfl, rfl⟩
theorem witness_no_configuration :
    (State.mk { w := 32, dtw := 8, dt := 0#8, rom := [] } zero [quiet] 0).cfg.admitted = false ∧
    (State.mk { w := 32, dtw := 8, dt := 1#8, rom := [(0, 0x60#8)] } zero [quiet] 0).cfg.admitted = false := by decide

/-! #### The invariant -/

/-- In S_ADV, with the row at position 3 of the full-step table on the lines. -/
def advInv : State :=
  stFor 40 { zero with ctl := .sAdv, modeL := 0b01#2, pos := 3#3, row := 0x96#8, ph := 3#2, out := 0x96#8 } quiet

/-- In S_ADV in reverse, with the row at position 0 of the half-step table on the lines. -/
def advInvReverse : State :=
  stFor 1 { zero with ctl := .sAdv, modeL := 0b10#2, row := 0x66#8, ph := 3#2, out := 0x66#8 } { quiet with dir := true }

/-- In S_MAKE of the last phase. -/
def makeInv : State :=
  stFor 40 { zero with ctl := .sMake, modeL := 0b10#2, row := 0x66#8, ph := 3#2, out := 0x26#8 } quiet

/-- In the wait, with `stop` held. -/
def spinInv : State :=
  stFor 40 { zero with ctl := .sSpin, modeL := 0b01#2, row := 0x66#8, ph := 3#2, out := 0x66#8, speedL := 9#32 } { quiet with stop := true }

/-- In the last dead-time step of the first phase. -/
def deadInv : State :=
  stFor 40 { zero with ctl := .sDead, modeL := 0b01#2, row := 0x66#8, dtc := 1#8 } { quiet with stop := true }

theorem witness_inv_fetchFull : Inv fetchFull := by
  refine ⟨by decide, by decide, ?_⟩
  constructor <;> (try simp only [noShootThrough, Ctl.updating, Ctl.holding]) <;> decide
theorem witness_inv_fetchHalf : Inv fetchHalf := by
  refine ⟨by decide, by decide, ?_⟩
  constructor <;> (try simp only [noShootThrough, Ctl.updating, Ctl.holding]) <;> decide
theorem witness_inv_adv : Inv advInv := by
  refine ⟨by decide, by decide, ?_⟩
  constructor <;> (try simp only [noShootThrough, Ctl.updating, Ctl.holding]) <;> decide
theorem witness_inv_adv_reverse : Inv advInvReverse := by
  refine ⟨by decide, by decide, ?_⟩
  constructor <;> (try simp only [noShootThrough, Ctl.updating, Ctl.holding]) <;> decide
theorem witness_inv_make : Inv makeInv := by
  refine ⟨by decide, by decide, ?_⟩
  constructor <;> (try simp only [noShootThrough, Ctl.updating, Ctl.holding]) <;> decide
theorem witness_inv_spin : Inv spinInv := by
  refine ⟨by decide, by decide, ?_⟩
  constructor <;> (try simp only [noShootThrough, Ctl.updating, Ctl.holding]) <;> decide
theorem witness_inv_dead : Inv deadInv := by
  refine ⟨by decide, by decide, ?_⟩
  constructor <;> (try simp only [noShootThrough, Ctl.updating, Ctl.holding]) <;> decide
theorem witness_inv_step : step makeInv = .next (makeInv.after 1
    { zero with ctl := .sAdv, modeL := 0b10#2, row := 0x66#8, ph := 3#2, out := 0x66#8 }) := rfl
theorem witness_inv_reset_step : (brk { quiet with rst := true }).cfg.rom.wf = true := by decide
theorem witness_make_exec : exec .sMake makeInv = .next { makeInv with regs :=
    ({ zero with ctl := .sAdv, modeL := 0b10#2, row := 0x66#8, ph := 3#2, out := 0x66#8 } : Regs 32 8) } := rfl

/-- A reset step and then `n` steps, from a state inside the loop. -/
def afterReset (p : Ports 32) : State :=
  { cfg := Config.default, regs := { zero with ctl := .sSpin, out := 0x55#8 }, inputs := [{ quiet with rst := true }, p], k := 0 }

theorem witness_after_reset : (afterReset quiet).ports.rst = true ∧
    step (afterReset quiet) = .next ((afterReset quiet).after 1 zero) ∧
    runs 0 ((afterReset quiet).after 1 zero) = .next ((afterReset quiet).after 1 zero) := ⟨rfl, rfl, rfl⟩
/-- The modes, S_FETCH and S_HALT one step later. -/
theorem witness_after_reset_modes :
    runs 1 ((afterReset quiet).after 1 zero) = .next ((afterReset quiet).after 2 { zero with ctl := .sFetch, modeL := 0b01#2 }) ∧
    runs 1 ((afterReset { quiet with mode := 0b10#2 }).after 1 zero) =
      .next ((afterReset { quiet with mode := 0b10#2 }).after 2 { zero with ctl := .sFetch, modeL := 0b10#2 }) ∧
    runs 1 ((afterReset { quiet with mode := 0b11#2 }).after 1 zero) =
      .next ((afterReset { quiet with mode := 0b11#2 }).after 2 { zero with ctl := .sHalt, cause := .badMode }) := ⟨rfl, rfl, rfl⟩

/-- A reset step and then enough quiet inputs for the first row. -/
def afterResetLong : State :=
  { cfg := Config.default, regs := { zero with ctl := .sSpin, out := 0x55#8 }
    inputs := { quiet with rst := true } :: List.replicate 16 quiet, k := 0 }

theorem witness_after_reset_long : afterResetLong.ports.rst = true ∧
    step afterResetLong = .next (afterResetLong.after 1 zero) := ⟨rfl, rfl⟩
/-- S_ADV, S_WENT and S_SPIN with the first row on the lines, 14, 15 and 16 steps after the reset step (P1 of
95_test_vectors.md without its ticks). -/
theorem witness_after_reset_sAdv : runs 14 (afterResetLong.after 1 zero) = .next (afterResetLong.after 15
    { zero with ctl := .sAdv, modeL := 0b01#2, row := 0x66#8, ph := 3#2, out := 0x66#8 }) := rfl
@[inherit_doc witness_after_reset_sAdv]
theorem witness_after_reset_sWent : runs 15 (afterResetLong.after 1 zero) = .next (afterResetLong.after 16
    { zero with ctl := .sWent, modeL := 0b01#2, pos := 1#3, row := 0x66#8, ph := 3#2, out := 0x66#8 }) := rfl
@[inherit_doc witness_after_reset_sAdv]
theorem witness_after_reset_sSpin : runs 16 (afterResetLong.after 1 zero) = .next (afterResetLong.after 17
    { zero with ctl := .sSpin, modeL := 0b01#2, pos := 1#3, row := 0x66#8, ph := 3#2, out := 0x66#8, speedL := 1#32 }) := rfl

/-! #### Composites -/

/-- Ready for a phase update from Drive-Low to the command of `row`, at the last phase. -/
def update (row : Byte) : State :=
  stFor 4 { zero with ctl := .sBreak, modeL := 0b01#2, row := row, ph := 3#2, out := 0x40#8 } { quiet with stop := true }

theorem witness_update : (update 0x80#8).cfg.admitted = true ∧ (update 0x80#8).regs.ctl = .sBreak ∧
    (∀ i, i < (update 0x80#8).cfg.dt.toNat + 2 → ((update 0x80#8).portsIn i).rst = false) ∧ (update 0x80#8).cfg.dt.toNat = 1 := by
  decide
theorem witness_update_commands : pairOf (update 0x00#8).regs.row (update 0x00#8).regs.ph = OutputState.floating.pair ∧
    pairOf (update 0x40#8).regs.row (update 0x40#8).regs.ph = OutputState.driveLow.pair ∧
    pairOf (update 0x80#8).regs.row (update 0x80#8).regs.ph = OutputState.driveHigh.pair := by decide

/-- A wait of two ticks, a tick in every step but the second, across the wrap of `TICK`. -/
def waitTwo : State :=
  { cfg := Config.default
    regs := { zero with ctl := .sWent, modeL := 0b01#2, tick := 0xFFFFFFFF#32 }
    inputs := [{ quiet with tick := true, speed := 2#32 }, quiet, { quiet with tick := true }, { quiet with tick := true }]
    k := 0 }

theorem witness_wait : waitTwo.cfg.admitted = true ∧ waitTwo.regs.ctl = .sWent ∧ waitTwo.ports.speed ≠ 0#waitTwo.cfg.w ∧
    (∀ i, i < 4 → (waitTwo.portsIn i).rst = false) ∧ (∀ i, i < 4 → (waitTwo.portsIn i).stop = false) ∧
    waitTwo.ticksIn 1 < 2 ∧ waitTwo.ticksIn 2 < 2 ∧ waitTwo.ports.speed.toNat ≤ waitTwo.ticksIn 3 := by decide

/-- In a wait with one tick missing, ticks coming in every step. -/
def spinning : State :=
  stFor 5 { zero with ctl := .sSpin, modeL := 0b01#2, tick := 1#32, t0 := 0xFFFFFFFE#32, speedL := 4#32 } { quiet with tick := true }

theorem witness_enough_ticks : spinning.cfg.admitted = true ∧ spinning.regs.ctl = .sSpin ∧
    (∀ i, i < 5 → (spinning.portsIn i).rst = false) ∧
    (∀ i, i < 5 → (spinning.portsIn i).stop = false) ∧
    spinning.regs.speedL.toNat ≤ spinning.ticksIn 4 := by decide
theorem witness_no_ticks : (spin 1#32 false).cfg.admitted = true ∧ (spin 1#32 false).regs.ctl = .sSpin ∧
    ((spin 1#32 false).regs.tick - (spin 1#32 false).regs.t0).toNat < (spin 1#32 false).regs.speedL.toNat ∧
    (∀ i, i < 1 → ((spin 1#32 false).portsIn i).rst = false) ∧ (∀ i, i < 1 → ((spin 1#32 false).portsIn i).stop = false) ∧
    (spin 1#32 false).ticksIn 1 = 0 := by decide
/-- Both step modes, forward and reverse, with the invariant shown above. -/
theorem witness_iteration : fetchFull.regs.ctl = .sFetch ∧ fetchHalf.regs.ctl = .sFetch ∧ fetchFull.cfg.dt.toNat = 1 ∧
    (∀ i, i < 14 → (fetchFull.portsIn i).rst = false) ∧ (∀ i, i < 14 → (fetchHalf.portsIn i).rst = false) ∧
    (fetchFull.portsIn 13).dir = false ∧ (fetchHalf.portsIn 13).dir = true := by decide
/-- A whole iteration with `m = 1`: the tick of the S_WENT step is the one the wait needs. -/
theorem witness_iteration_ticks : (∀ i, i < 16 → (fetchFull.portsIn i).rst = false) ∧ (fetchFull.portsIn 14).speed ≠ 0#fetchFull.cfg.w ∧
    (fetchFull.portsIn 15).stop = false ∧ (fetchFull.portsIn 14).speed.toNat ≤ fetchFull.ticksIn 15 - fetchFull.ticksIn 14 := by
  decide

/-- Right after reset, with a step mode on port `mode`. -/
def fresh (m : BitVec 2) : State := stFor 15 zero { quiet with mode := m }

theorem witness_first_row : (fresh 0b01#2).cfg.admitted = true ∧ (fresh 0b01#2).regs = Regs.reset (fresh 0b01#2).cfg.w (fresh 0b01#2).cfg.dtw ∧
    (∀ i, i < 15 → ((fresh 0b01#2).portsIn i).rst = false) ∧ (fresh 0b01#2).ports.mode = 0b01#2 ∧
    (fresh 0b10#2).ports.mode = 0b10#2 ∧ (fresh 0b01#2).ports.speed ≠ 0#(fresh 0b01#2).cfg.w := by decide
/-- One S_ADV at the end of the full-step table, forward, and one at the start of the half-step table, in reverse. -/
theorem witness_position : advInv.regs.modeL = 0b01#2 ∧ (advInv.portsIn 0).rst = false ∧ (advInv.portsIn 0).dir = false ∧
    advances 1 advInv = 1 ∧
    runs 1 advInv = .next (advInv.after 1
      { zero with ctl := .sWent, modeL := 0b01#2, pos := 0#3, row := 0x96#8, ph := 3#2, out := 0x96#8 }) :=
  ⟨rfl, rfl, rfl, rfl, rfl⟩
theorem witness_position_reverse : advInvReverse.regs.modeL = 0b10#2 ∧ (advInvReverse.portsIn 0).rst = false ∧
    (advInvReverse.portsIn 0).dir = true ∧ advances 1 advInvReverse = 1 ∧
    runs 1 advInvReverse = .next (advInvReverse.after 1
      { zero with ctl := .sWent, modeL := 0b10#2, pos := 7#3, row := 0x66#8, ph := 3#2, out := 0x66#8 }) :=
  ⟨rfl, rfl, rfl, rfl, rfl⟩
theorem witness_held_stop : (∀ i, i < 16 → (spinInv.portsIn i).rst = false ∧ (spinInv.portsIn i).stop = true) ∧
    (∀ i, i < 16 → (deadInv.portsIn i).rst = false ∧ (deadInv.portsIn i).stop = true) ∧
    spinInv.regs.ctl ≠ .sInit ∧ deadInv.regs.ctl ≠ .sInit ∧ 4 * deadInv.cfg.dt.toNat + 12 = 16 := by decide
/-- Halted, a tick, and then a reset. -/
def haltedThenReset : State :=
  { cfg := Config.default
    regs := { zero with ctl := .sHalt, cause := .badMode }
    inputs := [{ quiet with tick := true }, { quiet with rst := true }]
    k := 0 }

theorem witness_halt_lasts : haltedThenReset.cfg.admitted = true ∧ haltedThenReset.regs.ctl = .sHalt ∧
    (∀ i, i < 1 → (haltedThenReset.portsIn i).rst = false) ∧ (haltedThenReset.portsIn 1).rst = true := by decide

end Sys2Proof.Tests
end

/-! ## The machine is a total function (R7)

`Inv` is kept by every micro-operation: one lemma per micro-operation, over the effects `MicroEffect` names, and one for
the halt entry that three of them share. Progress then needs one fact only: the row never holds the reserved field. -/

namespace Sys2Proof.Machine

/-! ### The step through the decoder -/

/-- Only the micro-operation of `CTL` is decoded from its code. -/
theorem instr_of_decode {s : State} {i : Instr} (h : decode .ctl4 (s.regs.ctl.code.setWidth 8) = .ok i) :
    i = Ctl.instr s.regs.ctl := by
  have hd : decode .ctl4 (s.regs.ctl.code.setWidth 8) = .ok (Ctl.instr s.regs.ctl) := decode_ctlWord s
  rw [h] at hd
  injection hd

/-- TICKINC counts and does nothing else (R90). -/
theorem exec_tickInc (s : State) : exec .tickInc s = .next (s.withRegs s.regs.countTick) := rfl

@[simp] theorem Regs.afterTick_of_tick {w dtw : Nat} (r : Regs w dtw) {p : Ports w} (h : p.tick = true) :
    r.afterTick p = r.countTick := if_pos h

@[simp] theorem Regs.afterTick_of_no_tick {w dtw : Nat} (r : Regs w dtw) {p : Ports w} (h : p.tick = false) :
    r.afterTick p = r := if_neg (by simp [h])

/-- Settles O24, by the rule for a step without reset: `CTL`'s code decodes to nothing else, and the instruction writes
registers only. -/
theorem stepRunsTheDecodedInstruction : Obligations.StepRunsTheDecodedInstruction := by
  intro s t i ha hr hd he
  obtain rfl := instr_of_decode hd
  obtain ⟨r, rfl⟩ := exec_next_withRegs he
  have hs := step_of_exec ha hr he
  refine ⟨fun ht => ?_, fun ht u hu => ?_⟩
  · rw [hs, Regs.afterTick_of_no_tick r ht]
  · rw [exec_tickInc] at hu
    cases hu
    rw [hs, Regs.afterTick_of_tick r ht]

/-! ### Rows and lines -/

/-- R35 in terms of pairs: no phase shows `0b11`. -/
theorem noShootThrough_iff (v : Byte) : noShootThrough v ↔ ∀ p : BitVec 2, pairOf v p ≠ 3#2 :=
  forall_congr' fun p => not_congr (both_closed_iff v p)

/-- R52 (a) in terms of pairs: no field is `0b11`. -/
theorem rowFieldsLegal_iff (v : Byte) : rowFieldsLegal v = true ↔ ∀ p : BitVec 2, pairOf v p ≠ 3#2 := by
  simp only [rowFieldsLegal, Pair.isCommand, Bool.and_eq_true, bne_iff_ne]
  refine ⟨fun ⟨⟨⟨h0, h1⟩, h2⟩, h3⟩ p => ?_, fun h => ⟨⟨⟨h 0#2, h 1#2⟩, h 2#2⟩, h 3#2⟩⟩
  have hp : p = 0#2 ∨ p = 1#2 ∨ p = 2#2 ∨ p = 3#2 := by
    revert p
    decide
  rcases hp with rfl | rfl | rfl | rfl <;> assumption

/-- Writing a command on a phase closes no second switch (R112). -/
theorem noShootThrough_putPair {v : Byte} {p : BitVec 2} {c : Pair} (hv : noShootThrough v) (hc : c ≠ 3#2) :
    noShootThrough (putPair v p c) := by
  rw [noShootThrough_iff] at hv ⊢
  intro q
  by_cases hq : q = p
  · rwa [hq, pairOf_putPair_self]
  · rw [pairOf_putPair_other p q hq]
    exact hv q

/-- Once the phases below `p` show the row, writing the row's field on `p` makes all up to `p` show it (R121, R135). -/
theorem pairOf_putPair_upto {out row : Byte} {p : BitVec 2}
    (h : ∀ q : BitVec 2, q.toNat < p.toNat → pairOf out q = pairOf row q) (q : BitVec 2) (hq : q.toNat ≤ p.toNat) :
    pairOf (putPair out p (pairOf row p)) q = pairOf row q := by
  by_cases he : q = p
  · rw [he, pairOf_putPair_self]
  · rw [pairOf_putPair_other p q he]
    exact h q (by bv_omega)

/-- In the full-step mode the row address is in `TABLE_FULL` (R51). -/
theorem read_romAddr_full (rom : Memory) {pos : Pos} (hp : pos.toNat < 4) :
    rom.read (romAddr 0b01#2 pos) = tableFull rom pos.toNat := by
  have ha : romAddr 0b01#2 pos = BitVec.ofNat 4 (8 + pos.toNat) := by
    revert pos
    decide
  rw [ha, tableFull]

/-- In the half-step mode the row address is in `TABLE_HALF` (R51). -/
theorem read_romAddr_half (rom : Memory) (pos : Pos) :
    rom.read (romAddr 0b10#2 pos) = tableHalf rom pos.toNat := by
  have ha : romAddr 0b10#2 pos = BitVec.ofNat 4 pos.toNat := by
    revert pos
    decide
  rw [ha, tableHalf]

/-- Every row of an admitted `TABLE_FULL` is a decodable row (R52 (a)). -/
theorem tableFull_legal {rom : Memory} (h : tablesAdmitted rom = true) {i : Nat} (hi : i < 4) :
    rowFieldsLegal (tableFull rom i) = true := by
  simp only [tablesAdmitted, Bool.and_eq_true, List.all_eq_true, List.mem_range] at h
  have hrow := h.2 i hi
  simp only [fullRowAdmitted, Bool.and_eq_true] at hrow
  exact hrow.1.1

/-- Every row of an admitted `TABLE_HALF` is a decodable row (R52 (a)). -/
theorem tableHalf_legal {rom : Memory} (h : tablesAdmitted rom = true) {i : Nat} (hi : i < 8) :
    rowFieldsLegal (tableHalf rom i) = true := by
  simp only [tablesAdmitted, Bool.and_eq_true, List.all_eq_true, List.mem_range] at h
  have hrow := h.1 i hi
  simp only [halfRowAdmitted, Bool.and_eq_true] at hrow
  exact hrow.1.1

/-- What an admitted configuration gives: some dead time (R5) and well-formed tables (R52). -/
theorem admitted_parts {c : Config} (h : c.admitted = true) : 1 ≤ c.dt.toNat ∧ tablesAdmitted c.rom = true := by
  simp only [Config.admitted, Bool.and_eq_true, decide_eq_true_eq] at h
  exact ⟨h.1.2, h.2⟩

/-- The row a position in range selects is a decodable row (R36, R52 (a)). -/
theorem read_romAddr_legal {rom : Memory} (h : tablesAdmitted rom = true) {m : BitVec 2} (hm : legalMode m = true)
    {pos : Pos} (hp : pos.toNat < (tableLen m).toNat) : rowFieldsLegal (rom.read (romAddr m pos)) = true := by
  rcases (legalMode_iff m).1 hm with rfl | rfl
  · have hp4 : pos.toNat < 4 := hp
    rw [read_romAddr_full rom hp4]
    exact tableFull_legal h hp4
  · rw [read_romAddr_half]
    exact tableHalf_legal h pos.isLt

/-- The unlatched value is no step mode (R23). -/
theorem legalMode_ne_zero {m : BitVec 2} (h : legalMode m = true) : m ≠ 0b00#2 := by
  rintro rfl
  exact absurd h (by decide)

/-- Position 0 is in every table (R36). -/
theorem zero_lt_tableLen {m : BitVec 2} (h : legalMode m = true) : 0 < (tableLen m).toNat := by
  rcases (legalMode_iff m).1 h with rfl | rfl <;> decide

/-! ### What every state keeps -/

section
variable {w dtw : Nat} {rom : Memory} {dt : BitVec dtw} {r : Regs w dtw}

/-- The byte of zeros has no field `0b11`. -/
theorem pairOf_zero_ne : ∀ p : BitVec 2, pairOf 0x00#8 p ≠ 3#2 := by
  decide

/-- The reset registers meet the invariant (R171, R172). -/
theorem regsInv_reset : RegsInv rom dt (Regs.reset w dtw) := by
  constructor
  case noShoot => exact (noShootThrough_iff _).2 pairOf_zero_ne
  case rowCommands => exact (rowFieldsLegal_iff _).2 pairOf_zero_ne
  case posInRange => exact fun hm => zero_lt_tableLen hm
  all_goals simp [Regs.reset, Ctl.updating, Ctl.holding]

/-- A count above 1 can be lowered by 1, at every width (R111). -/
theorem toNat_sub_one {d : BitVec dtw} (h : 1 < d.toNat) : (d - 1#dtw).toNat = d.toNat - 1 := by
  have hlt : 1 < 2 ^ dtw := lt_trans h d.isLt
  have hone : (1#dtw).toNat = 1 := by rw [BitVec.toNat_ofNat, Nat.mod_eq_of_lt hlt]
  rw [BitVec.toNat_sub_of_le (by rw [BitVec.le_def]; omega), hone]

/-- No cause is recorded while not halted (R31). -/
theorem RegsInv.cause_none (h : RegsInv rom dt r) (hc : r.ctl ≠ .sHalt) : r.cause = .none :=
  not_not.1 fun hn => hc (h.causeHalted.1 hn)

/-- The tick increment keeps the invariant in every state but the one right after a reset (R90, R130). -/
theorem RegsInv.afterTick (h : RegsInv rom dt r) (hc : r.ctl ≠ .sInit) (p : Ports w) : RegsInv rom dt (r.afterTick p) := by
  rw [Regs.afterTick_eq]
  exact { h with initFresh := fun hi => absurd hi hc }

/-- The halt entry keeps the invariant from every state with no dead time pending (R38, R155). -/
theorem RegsInv.haltEntry (h : RegsInv rom dt r) (hd : r.ctl ≠ .sDead) {c : Cause} (hc : c ≠ .none) :
    RegsInv rom dt (r.haltEntry c) := by
  constructor
  case noShoot => exact (noShootThrough_iff _).2 pairOf_zero_ne
  case deadIdle => exact fun _ => h.deadIdle hd
  case rowCommands => exact h.rowCommands
  case modeValue => exact h.modeValue
  case posInRange => exact h.posInRange
  case posUnlatched => exact h.posUnlatched
  all_goals simp [hc, Ctl.updating, Ctl.holding]

/-! ### What each micro-operation keeps

Each lemma proves by name the facts its micro-operation has to establish; the others are carried over or speak of another
value of `CTL`. -/

/-- S_INIT, where the check passes (R130). -/
theorem RegsInv.sInit_latch (h : RegsInv rom dt r) (hc : r.ctl = .sInit) {m : BitVec 2} (hm : legalMode m = true) :
    RegsInv rom dt ((r.latchMode m).goto .sFetch) := by
  obtain rfl := h.initFresh hc
  constructor
  case noShoot => exact h.noShoot
  case rowCommands => exact h.rowCommands
  case posInRange => exact fun _ => zero_lt_tableLen hm
  all_goals simp [Regs.reset, hm, Ctl.updating]

/-- S_FETCH (R131). -/
theorem RegsInv.sFetch (h : RegsInv rom dt r) (hc : r.ctl = .sFetch) (ht : tablesAdmitted rom = true) :
    RegsInv rom dt (((r.loadRow (rom.read (romAddr r.modeL r.pos))).setPhase 0#2).goto .sBreak) := by
  have hm : legalMode r.modeL = true := h.modeLatched (by simp [hc]) (by simp [hc])
  constructor
  case noShoot => exact h.noShoot
  case rowCommands => exact read_romAddr_legal ht hm (h.posInRange hm)
  case posInRange => exact h.posInRange
  case deadIdle => exact fun _ => h.deadIdle (by simp [hc])
  all_goals simp [hm, legalMode_ne_zero hm, h.cause_none, hc, Ctl.holding]

/-- S_BREAK (R110). -/
theorem RegsInv.sBreak (h : RegsInv rom dt r) (hc : r.ctl = .sBreak) (hdt : 1 ≤ dt.toNat) :
    RegsInv rom dt (((r.writePair 0b00#2).setDead dt).goto .sDead) := by
  have hm : legalMode r.modeL = true := h.modeLatched (by simp [hc]) (by simp [hc])
  have hu : Ctl.updating r.ctl := .inl hc
  constructor
  case noShoot => exact noShootThrough_putPair h.noShoot (by decide)
  case rowCommands => exact h.rowCommands
  case posInRange => exact h.posInRange
  case rowFetched => exact fun _ => h.rowFetched (.inl hu)
  case phasesDone =>
    intro _ q hq
    have hne : q ≠ r.ph := by rintro rfl; exact lt_irrefl _ hq
    exact (pairOf_putPair_other r.ph q hne _ _).trans (h.phasesDone hu q hq)
  all_goals simp [hm, hdt, legalMode_ne_zero hm, h.cause_none, hc, Ctl.holding]

/-- S_DEAD, with dead time left (R111). -/
theorem RegsInv.sDead_wait (h : RegsInv rom dt r) (hc : r.ctl = .sDead) (hd : 1 < r.dtc.toNat) :
    RegsInv rom dt ((r.setDead (r.dtc - 1#dtw)).goto .sDead) := by
  have hm : legalMode r.modeL = true := h.modeLatched (by simp [hc]) (by simp [hc])
  have hu : Ctl.updating r.ctl := .inr (.inl hc)
  constructor
  case noShoot => exact h.noShoot
  case rowCommands => exact h.rowCommands
  case posInRange => exact h.posInRange
  case deadRange =>
    intro _
    obtain ⟨-, hmax⟩ := h.deadRange hc
    have hsub := toNat_sub_one hd
    simp only [Regs.goto_dtc, Regs.setDead_dtc]
    omega
  case rowFetched => exact fun _ => h.rowFetched (.inl hu)
  case phasesDone => exact fun _ => h.phasesDone hu
  case phaseOpen => exact fun _ => h.phaseOpen (.inl hc)
  all_goals simp [hm, legalMode_ne_zero hm, h.cause_none, hc, Ctl.holding]

/-- S_DEAD, in its last step (R111). -/
theorem RegsInv.sDead_end (h : RegsInv rom dt r) (hc : r.ctl = .sDead) :
    RegsInv rom dt ((r.setDead 0#dtw).goto .sMake) := by
  have hm : legalMode r.modeL = true := h.modeLatched (by simp [hc]) (by simp [hc])
  have hu : Ctl.updating r.ctl := .inr (.inl hc)
  constructor
  case noShoot => exact h.noShoot
  case rowCommands => exact h.rowCommands
  case posInRange => exact h.posInRange
  case rowFetched => exact fun _ => h.rowFetched (.inl hu)
  case phasesDone => exact fun _ => h.phasesDone hu
  case phaseOpen => exact fun _ => h.phaseOpen (.inl hc)
  all_goals simp [hm, legalMode_ne_zero hm, h.cause_none, hc, Ctl.holding]

/-- S_MAKE with the next phase to come (R112). -/
theorem RegsInv.sMake_next (h : RegsInv rom dt r) (hc : r.ctl = .sMake) (hf : pairOf r.row r.ph ≠ 3#2) :
    RegsInv rom dt (((r.writePair (pairOf r.row r.ph)).setPhase (r.ph + 1#2)).goto .sBreak) := by
  have hm : legalMode r.modeL = true := h.modeLatched (by simp [hc]) (by simp [hc])
  have hu : Ctl.updating r.ctl := .inr (.inr hc)
  constructor
  case noShoot => exact noShootThrough_putPair h.noShoot hf
  case rowCommands => exact h.rowCommands
  case posInRange => exact h.posInRange
  case deadIdle => exact fun _ => h.deadIdle (by simp [hc])
  case rowFetched => exact fun _ => h.rowFetched (.inl hu)
  case phasesDone =>
    intro _ q hq
    exact pairOf_putPair_upto (h.phasesDone hu) q (by simp at hq; bv_omega)
  all_goals simp [hm, legalMode_ne_zero hm, h.cause_none, hc, Ctl.holding]

/-- S_MAKE of the last phase (R112): the whole row stands on the lines (R37). -/
theorem RegsInv.sMake_last (h : RegsInv rom dt r) (hc : r.ctl = .sMake) (hf : pairOf r.row r.ph ≠ 3#2) (hp : r.ph = 3#2) :
    RegsInv rom dt ((r.writePair (pairOf r.row r.ph)).goto .sAdv) := by
  have hm : legalMode r.modeL = true := h.modeLatched (by simp [hc]) (by simp [hc])
  have hu : Ctl.updating r.ctl := .inr (.inr hc)
  constructor
  case noShoot => exact noShootThrough_putPair h.noShoot hf
  case rowCommands => exact h.rowCommands
  case posInRange => exact h.posInRange
  case deadIdle => exact fun _ => h.deadIdle (by simp [hc])
  case rowFetched => exact fun _ => h.rowFetched (.inl hu)
  case rowApplied => exact fun _ => eq_of_pairOf_eq fun q => pairOf_putPair_upto (h.phasesDone hu) q (by bv_omega)
  all_goals simp [hm, legalMode_ne_zero hm, h.cause_none, hc, Ctl.updating]

/-- S_ADV (R132). -/
theorem RegsInv.sAdv (h : RegsInv rom dt r) (hc : r.ctl = .sAdv) (dir : Bool) :
    RegsInv rom dt ((r.setPos (nextPos dir r.modeL r.pos)).goto .sWent) := by
  have hm : legalMode r.modeL = true := h.modeLatched (by simp [hc]) (by simp [hc])
  constructor
  case noShoot => exact h.noShoot
  case rowCommands => exact h.rowCommands
  case posInRange => exact fun _ => nextPos_lt hm dir (h.posInRange hm)
  case deadIdle => exact fun _ => h.deadIdle (by simp [hc])
  case rowApplied => exact fun _ => h.rowApplied (.inl (.inl hc))
  all_goals simp [hm, legalMode_ne_zero hm, h.cause_none, hc, Ctl.updating]

/-- S_WENT, where the duration is not zero (R92). -/
theorem RegsInv.sWent_capture (h : RegsInv rom dt r) (hc : r.ctl = .sWent) {d : BitVec w} (hd : d ≠ 0#w) :
    RegsInv rom dt ((r.captureWait d).goto .sSpin) := by
  have hm : legalMode r.modeL = true := h.modeLatched (by simp [hc]) (by simp [hc])
  constructor
  case noShoot => exact h.noShoot
  case rowCommands => exact h.rowCommands
  case posInRange => exact h.posInRange
  case deadIdle => exact fun _ => h.deadIdle (by simp [hc])
  case spinSpeed => exact fun _ => hd
  case rowApplied => exact fun _ => h.rowApplied (.inl (.inr (.inl hc)))
  all_goals simp [hm, legalMode_ne_zero hm, h.cause_none, hc, Ctl.updating]

/-- S_SPIN, where the wait goes on or ends (R93). -/
theorem RegsInv.sSpin_goto (h : RegsInv rom dt r) (hc : r.ctl = .sSpin) {c : Ctl} (hn : c = .sSpin ∨ c = .sFetch) :
    RegsInv rom dt (r.goto c) := by
  have hm : legalMode r.modeL = true := h.modeLatched (by simp [hc]) (by simp [hc])
  constructor
  case noShoot => exact h.noShoot
  case rowCommands => exact h.rowCommands
  case posInRange => exact h.posInRange
  case deadIdle => exact fun _ => h.deadIdle (by simp [hc])
  case spinSpeed => exact fun _ => h.spinSpeed hc
  case rowApplied => exact fun _ => h.rowApplied (.inl (.inr (.inr hc)))
  all_goals rcases hn with rfl | rfl <;> simp [hm, legalMode_ne_zero hm, h.cause_none, hc, Ctl.updating]

end

/-- Every micro-operation keeps the invariant of the registers, and none goes back to S_INIT (R130, R136). -/
theorem MicroEffect.regsInv {s : State} {r : Regs s.cfg.w s.cfg.dtw} (he : MicroEffect s r) (h : Inv s) :
    RegsInv s.cfg.rom s.cfg.dt r ∧ r.ctl ≠ .sInit := by
  obtain ⟨hdt, ht⟩ := admitted_parts h.admitted
  have hi := h.regs
  unfold MicroEffect at he
  split at he
  next hc =>
    obtain ⟨hm, -, rfl⟩ | ⟨-, -, rfl⟩ | ⟨-, rfl⟩ := he
    · exact ⟨hi.sInit_latch hc hm, by simp⟩
    · exact ⟨hi.haltEntry (by simp [hc]) (by simp), by simp⟩
    · exact ⟨hi.haltEntry (by simp [hc]) (by simp), by simp⟩
  next hc =>
    subst he
    exact ⟨hi.sFetch hc ht, by simp⟩
  next hc =>
    subst he
    exact ⟨hi.sBreak hc hdt, by simp⟩
  next hc =>
    obtain ⟨hd, rfl⟩ | ⟨-, rfl⟩ := he
    · exact ⟨hi.sDead_wait hc hd, by simp⟩
    · exact ⟨hi.sDead_end hc, by simp⟩
  next hc =>
    obtain ⟨hf, ⟨hp, rfl⟩ | ⟨-, rfl⟩⟩ := he
    · exact ⟨hi.sMake_last hc hf hp, by simp⟩
    · exact ⟨hi.sMake_next hc hf, by simp⟩
  next hc =>
    subst he
    exact ⟨hi.sAdv hc _, by simp⟩
  next hc =>
    obtain ⟨hs, rfl⟩ | ⟨-, rfl⟩ := he
    · exact ⟨hi.sWent_capture hc hs, by simp⟩
    · exact ⟨hi.haltEntry (by simp [hc]) (by simp), by simp⟩
  next hc =>
    obtain ⟨-, rfl⟩ | ⟨-, -, rfl⟩ | ⟨-, -, rfl⟩ := he
    · exact ⟨hi.haltEntry (by simp [hc]) (by simp), by simp⟩
    · exact ⟨hi.sSpin_goto hc (.inr rfl), by simp⟩
    · exact ⟨hi.sSpin_goto hc (.inl rfl), by simp⟩
  next hc =>
    subst he
    refine ⟨?_, by simp⟩
    have hsame : s.regs.goto .sHalt = s.regs := by rw [← hc]; rfl
    rwa [hsame]

/-! ### Preservation and progress -/

/-- Preservation: a reset step by the reset values, any other by its micro-operation and then the tick. -/
theorem inv_step {s t : State} (h : Inv s) (hs : step s = .next t) : Inv t := by
  obtain ⟨-, ⟨-, rfl⟩ | ⟨-, r, he, rfl⟩⟩ := step_next_cases hs
  · exact ⟨h.admitted, h.romCanonical, regsInv_reset⟩
  · obtain ⟨hr, hc⟩ := (microEffect_of_exec he).regsInv h
    exact ⟨h.admitted, h.romCanonical, hr.afterTick hc s.ports⟩

/-- A micro-operation has a next state wherever `ROW` is a decodable row: the only field it declines is `0b11` (R119). -/
theorem exec_total {s : State} (h : rowFieldsLegal s.regs.row = true) :
    ∃ r, exec (Ctl.instr s.regs.ctl) s = .next (s.withRegs r) := by
  cases s.regs.ctl with
  | sFetch | sBreak | sAdv | sHalt => exact ⟨_, rfl⟩
  | sInit =>
    change ∃ r, execSInit s = _
    unfold execSInit
    split
    · split <;> exact ⟨_, rfl⟩
    · exact ⟨_, rfl⟩
  | sDead =>
    change ∃ r, execSDead s = _
    unfold execSDead
    split <;> exact ⟨_, rfl⟩
  | sMake =>
    change ∃ r, execSMake s = _
    unfold execSMake
    obtain ⟨hbad, -⟩ | ⟨-, c, hc, -⟩ := ofPair_cases (pairOf s.regs.row s.regs.ph)
    · exact absurd hbad ((rowFieldsLegal_iff _).1 h _)
    · rw [hc]
      dsimp only
      split <;> exact ⟨_, rfl⟩
  | sWent =>
    change ∃ r, execSWent s = _
    unfold execSWent
    split <;> exact ⟨_, rfl⟩
  | sSpin =>
    change ∃ r, execSSpin s = _
    unfold execSSpin
    split
    · exact ⟨_, rfl⟩
    · split <;> exact ⟨_, rfl⟩

/-- A state that meets the invariant has a next state, under every input (R7). -/
theorem step_total {s : State} (h : Inv s) : ∃ r, step s = .next (s.after 1 r) := by
  cases hr : s.ports.rst with
  | true => exact ⟨_, step_of_rst h.admitted hr⟩
  | false =>
    obtain ⟨r, he⟩ := exec_total h.regs.rowCommands
    exact ⟨_, step_of_exec h.admitted hr he⟩

/-- Settles O42, by induction on the number of steps: the last one exists by progress (`step_total`) and keeps the
invariant by preservation (`inv_step`). -/
theorem noRunStops : Obligations.NoRunStops := by
  intro s n h
  induction n with
  | zero => exact ⟨s.regs, rfl, h⟩
  | succ n ih =>
    obtain ⟨q, hrun, hq⟩ := ih
    obtain ⟨r, hstep⟩ := step_total hq
    refine ⟨r, runs_snoc hrun hstep, ?_⟩
    have hnext := inv_step hq hstep
    rwa [State.after_after] at hnext

end Sys2Proof.Machine

/-! ## The state's rules (10_state.md R20, R33 to R38)

The statements about runs after a reset speak of every ROM, and `Inv` of the canonical ones. The machine sees the
contents of the ROM only, and every contents have a canonical form, so what is proved of `Inv` carries over. -/

namespace Sys2Proof

/-! ### The canonical form of a ROM's contents -/

/-- All ROMs agree where the ROM is not populated (U9). -/
theorem Memory.read_unpopulated (m m' : Memory) {a : RomAddr} (ha : ¬ a.toNat < romPopulated) : m.read a = m'.read a := by
  unfold Memory.read
  rw [if_neg ha, if_neg ha]

/-- A canonical ROM can be written word by word to agree with any ROM on a list of addresses. -/
theorem Memory.exists_wf_read_eq_on (m : Memory) :
    ∀ l : List RomAddr, ∃ m' : Memory, m'.wf = true ∧ ∀ a ∈ l, m'.read a = m.read a
  | [] => ⟨[], rfl, by simp⟩
  | x :: l => by
    obtain ⟨m', hwf, hl⟩ := Memory.exists_wf_read_eq_on m l
    refine ⟨m'.write x (m.read x), Memory.write_wf x _ hwf, fun a hmem => ?_⟩
    by_cases hax : a = x
    · subst hax
      by_cases ha : a.toNat < romPopulated
      · exact Memory.read_write_self a _ hwf ha
      · exact Memory.read_unpopulated _ _ ha
    · rw [Memory.read_write_other x a _ hax]
      exact hl a ((List.mem_cons.1 hmem).resolve_left hax)

/-- The contents of every ROM are the contents of a canonical one. -/
theorem Memory.exists_wf_read_eq (m : Memory) : ∃ m' : Memory, m'.wf = true ∧ m'.read = m.read := by
  obtain ⟨m', hwf, h⟩ := m.exists_wf_read_eq_on ((List.finRange 16).map BitVec.ofFin)
  exact ⟨m', hwf, funext fun a => h a (List.mem_map.2 ⟨a.toFin, List.mem_finRange _, rfl⟩)⟩

end Sys2Proof

namespace Sys2Proof.Machine

/-! ### The machine sees the contents of the ROM only -/

/-- The same machine with its ROM listed as `m`. -/
def State.withRom (s : State) (m : Memory) : State :=
  { cfg := { s.cfg with rom := m }, regs := s.regs, inputs := s.inputs, k := s.k }

/-- R52 speaks of the contents. -/
theorem tablesAdmitted_of_read_eq {rom rom' : Memory} (hm : rom'.read = rom.read) :
    tablesAdmitted rom' = tablesAdmitted rom := by
  unfold tablesAdmitted tableHalf tableFull
  rw [hm]

/-- Admission speaks of the contents, and of parameters that stay (R5, R52). -/
theorem admitted_withRom {s : State} {m : Memory} (hm : m.read = s.cfg.rom.read) :
    (s.withRom m).cfg.admitted = s.cfg.admitted :=
  congrArg₂ and rfl (tablesAdmitted_of_read_eq hm)

/-- S_FETCH alone reads the ROM, and it reads a word of the contents (R131). -/
theorem MicroEffect.withRom {s : State} {m : Memory} (hm : m.read = s.cfg.rom.read) {r : Regs s.cfg.w s.cfg.dtw}
    (he : MicroEffect s r) : MicroEffect (s.withRom m) r := by
  unfold MicroEffect State.withRom
  rw [hm]
  exact he

/-- The invariant of the registers is about the contents (R24). -/
theorem RegsInv.of_read_eq {w dtw : Nat} {rom rom' : Memory} {dt : BitVec dtw} {r : Regs w dtw}
    (h : RegsInv rom dt r) (hm : rom'.read = rom.read) : RegsInv rom' dt r :=
  { h with rowFetched := by rw [hm]; exact h.rowFetched }

/-- Every step keeps the invariant of the registers, whatever the form of the ROM. -/
theorem regsInv_step {s t : State} (h : RegsInv s.cfg.rom s.cfg.dt s.regs) (hs : step s = .next t) :
    RegsInv t.cfg.rom t.cfg.dt t.regs := by
  obtain ⟨ha, ⟨-, rfl⟩ | ⟨-, r, he, rfl⟩⟩ := step_next_cases hs
  · exact regsInv_reset
  · obtain ⟨m, hwf, hm⟩ := s.cfg.rom.exists_wf_read_eq
    have hinv : Inv (s.withRom m) := ⟨(admitted_withRom hm).trans ha, hwf, h.of_read_eq hm⟩
    obtain ⟨hr, hc⟩ := ((microEffect_of_exec he).withRom hm).regsInv hinv
    exact (hr.of_read_eq hm.symm).afterTick hc s.ports

/-! ### Reachable states -/

/-- What every step keeps, every run keeps. -/
theorem runs_keep {P : State → Prop} (hstep : ∀ {s t : State}, P s → step s = .next t → P t) {u : State} :
    ∀ {n : Nat} {s : State}, P s → runs n s = .next u → P u
  | 0, s, hs, h => by
    cases h
    exact hs
  | n + 1, s, hs, h => by
    obtain ⟨t, ht, hu⟩ := andThen_eq_next.1 h
    exact runs_keep hstep (hstep hs ht) hu

/-- A reset establishes the invariant of the registers, and every run after it keeps it (R170, R172). -/
theorem regsInv_after_reset {s t u : State} {n : Nat} (hr : s.ports.rst = true) (hs : step s = .next t)
    (hu : runs n t = .next u) : RegsInv u.cfg.rom u.cfg.dt u.regs := by
  have ht : RegsInv t.cfg.rom t.cfg.dt t.regs := by
    obtain ⟨-, ⟨-, rfl⟩ | ⟨hn, -⟩⟩ := step_next_cases hs
    · exact regsInv_reset
    · rw [hr] at hn
      cases hn
  exact runs_keep (P := fun v => RegsInv v.cfg.rom v.cfg.dt v.regs) regsInv_step ht hu

/-- A position in range addresses a populated word (R36, R51). -/
theorem romAddr_populated {m : BitVec 2} (hm : legalMode m = true) {pos : Pos} (hp : pos.toNat < (tableLen m).toNat) :
    (romAddr m pos).toNat < romPopulated := by
  rcases (legalMode_iff m).1 hm with rfl | rfl <;> revert pos <;> decide

/-- Settles O41: preservation. -/
theorem everyStepKeepsTheInvariant : Obligations.EveryStepKeepsTheInvariant :=
  fun _ _ => inv_step

/-- Settles O43, by the invariant's first fact. -/
theorem noShootThroughAfterReset : Obligations.NoShootThroughAfterReset :=
  fun _ _ _ _ hr hs hu => (regsInv_after_reset hr hs hu).noShoot

/-- Settles O44, each clause by the fact of the invariant it rests on. -/
theorem reachableStatesMeetTheRules : Obligations.ReachableStatesMeetTheRules := by
  intro s t u n hr hs hu
  have hi := regsInv_after_reset hr hs hu
  refine ⟨fun hm => ?_, fun _ => u.regs.pos.isLt, hi.posUnlatched, fun hc => ?_, fun hc => ?_, fun hc => ?_⟩
  · have hp := hi.posInRange (by rw [hm]; rfl)
    rwa [hm] at hp
  · have hm := hi.modeLatched (by simp [hc]) (by simp [hc])
    exact romAddr_populated hm (hi.posInRange hm)
  · exact hi.rowApplied (by simpa [Ctl.holding, or_assoc] using hc)
  · exact ⟨hi.haltedOpen hc, hi.causeHalted.2 hc⟩

/-! ### The register table -/

/-- Settles O29, by the effects of each micro-operation: each leaves every register it does not name, and the tick
part leaves all but `TICK`. -/
theorem registersHaveTheirWriters : Obligations.RegistersHaveTheirWriters := by
  intro s r hs hr
  obtain ⟨hrst, -⟩ | ⟨-, q, he, rfl⟩ := step_regs_cases hs
  · rw [hr] at hrst
    cases hrst
  unfold MicroEffect at he
  cases hc : s.regs.ctl <;> rw [hc] at he <;> dsimp only at he
  case sInit => obtain ⟨-, -, rfl⟩ | ⟨-, -, rfl⟩ | ⟨-, rfl⟩ := he <;> simp +contextual [Regs.afterTick_tick]
  case sDead => obtain ⟨-, rfl⟩ | ⟨-, rfl⟩ := he <;> simp +contextual [Regs.afterTick_tick]
  case sMake => obtain ⟨-, ⟨-, rfl⟩ | ⟨-, rfl⟩⟩ := he <;> simp +contextual [Regs.afterTick_tick]
  case sWent => obtain ⟨-, rfl⟩ | ⟨-, rfl⟩ := he <;> simp +contextual [Regs.afterTick_tick]
  case sSpin => obtain ⟨-, rfl⟩ | ⟨-, -, rfl⟩ | ⟨-, -, rfl⟩ := he <;> simp +contextual [Regs.afterTick_tick]
  all_goals
    subst he
    simp +contextual [Regs.afterTick_tick]

/-! ### The output ports and the reset state -/

/-- Settles O37: every port is a register's value by definition, and the cause's code is read off case by case (R76). -/
theorem outputPortsAreWires : Obligations.OutputPortsAreWires := by
  intro s
  refine ⟨rfl, fun p => ⟨rfl, rfl⟩, rfl, rfl, beq_iff_eq, ?_⟩
  change s.regs.cause.code = _
  cases s.regs.cause <;> rfl

/-- Settles O39: the default configuration is admitted, and reset registers meet the invariant. -/
theorem invariantHoldsAtReset : Obligations.InvariantHoldsAtReset :=
  ⟨by decide, rfl, regsInv_reset⟩

end Sys2Proof.Machine

/-! ## The step-table ROM (20_memory.md R51 to R59)

A row's admission is a property of its two coils: R52 (b) admits a coil that is driven or open, (c) and (d) say which of
the two it is, and (a) follows from (b). -/

namespace Sys2Proof.Machine

/-! ### Nothing writes the ROM -/

/-- Every next state is one step after, with other registers (R7). -/
theorem step_next_after {s t : State} (h : step s = .next t) : ∃ r : Regs s.cfg.w s.cfg.dtw, t = s.after 1 r := by
  obtain ⟨-, ⟨-, ht⟩ | ⟨-, r, -, ht⟩⟩ := step_next_cases h
  · exact ⟨_, ht⟩
  · exact ⟨_, ht⟩

/-- Settles O23: the next state is the old one with other registers, and the ROM is no register. -/
theorem noInstructionWritesTheRom : Obligations.NoInstructionWritesTheRom := by
  intro i s t h
  obtain ⟨r, rfl⟩ := exec_next_withRegs h
  exact ⟨fun _ => rfl, rfl, rfl, r, rfl⟩

/-- Settles O27: a reset step and any other differ in the registers they leave, and the ROM is no register. -/
theorem stepsKeepTheConfiguration : Obligations.StepsKeepTheConfiguration := by
  intro s t h
  obtain ⟨r, rfl⟩ := step_next_after h
  exact ⟨r, rfl, fun _ => rfl⟩

/-! ### Coils -/

/-- The coil carries current, one way or the other: `+` or `-` in the notation of R80. -/
def CoilDriven (b : BitVec 4) : Prop := b = 0b0110#4 ∨ b = 0b1001#4

/-- A legal coil that is energised is a driven one (R52 (b)). -/
theorem coil_energised_iff (b : BitVec 4) :
    (CoilState.ofBits b).isSome = true ∧ energised b = true ↔ CoilDriven b := by
  unfold CoilDriven
  revert b
  decide

/-- A coil that is not energised is an open one, and is legal (R52 (b)). -/
theorem coil_open_iff (b : BitVec 4) :
    (CoilState.ofBits b).isSome = true ∧ energised b = false ↔ b = 0b0000#4 := by
  revert b
  decide

/-- R52 (b) implies R52 (a): the states of a coil hold no field `0b11`. -/
theorem rowFieldsLegal_of_rowCoilsLegal : ∀ v : Byte, rowCoilsLegal v = true → rowFieldsLegal v = true := by
  decide

/-! ### Rows -/

/-- R52 (a) and (b) ask of each coil that it is in a legal state, and nothing more. -/
theorem rowLegal_iff (v : Byte) :
    (rowFieldsLegal v && rowCoilsLegal v) = true ↔
      (CoilState.ofBits (coil1 v)).isSome = true ∧ (CoilState.ofBits (coil2 v)).isSome = true := by
  rw [Bool.and_eq_true, and_iff_right_of_imp (rowFieldsLegal_of_rowCoilsLegal v), rowCoilsLegal, Bool.and_eq_true]

/-- A row of `TABLE_FULL` drives both coils (R52 (c)). -/
theorem fullRowAdmitted_iff (v : Byte) :
    fullRowAdmitted v = true ↔ CoilDriven (coil1 v) ∧ CoilDriven (coil2 v) := by
  rw [fullRowAdmitted, Bool.and_eq_true, rowLegal_iff, rowTwoCoil, Bool.and_eq_true, and_and_and_comm,
    coil_energised_iff, coil_energised_iff]

/-- At an even position a row of `TABLE_HALF` is what a row of `TABLE_FULL` is (R52 (c), (d)). -/
theorem halfRowAdmitted_even {i : Nat} (hi : i % 2 = 0) (v : Byte) : halfRowAdmitted i v = fullRowAdmitted v := by
  rw [halfRowAdmitted, if_pos hi, fullRowAdmitted]

/-- At an odd position a row of `TABLE_HALF` drives one coil and leaves the other open (R52 (d)). -/
theorem halfRowAdmitted_odd_iff {i : Nat} (hi : i % 2 = 1) (v : Byte) :
    halfRowAdmitted i v = true ↔
      (CoilDriven (coil1 v) ∧ coil2 v = 0b0000#4) ∨ (coil1 v = 0b0000#4 ∧ CoilDriven (coil2 v)) := by
  have hodd : ¬ i % 2 = 0 := by omega
  have exactly_one : ∀ a b : Bool, (a != b) = true ↔ (a = true ∧ b = false) ∨ (a = false ∧ b = true) := by decide
  rw [halfRowAdmitted, if_neg hodd, Bool.and_eq_true, rowLegal_iff, rowOneCoil, exactly_one, and_or_left]
  exact or_congr (and_and_and_comm.trans (and_congr (coil_energised_iff _) (coil_open_iff _)))
    (and_and_and_comm.trans (and_congr (coil_open_iff _) (coil_energised_iff _)))

/-- The two halves of R52 (d) together: every position is even or odd. -/
theorem halfRowAdmitted_iff (i : Nat) (v : Byte) :
    halfRowAdmitted i v = true ↔
      (i % 2 = 0 → CoilDriven (coil1 v) ∧ CoilDriven (coil2 v)) ∧
      (i % 2 = 1 →
        (CoilDriven (coil1 v) ∧ coil2 v = 0b0000#4) ∨ (coil1 v = 0b0000#4 ∧ CoilDriven (coil2 v))) := by
  rcases Nat.mod_two_eq_zero_or_one i with hi | hi
  · rw [halfRowAdmitted_even hi, fullRowAdmitted_iff]
    simp [hi]
  · rw [halfRowAdmitted_odd_iff hi]
    simp [hi]

/-! ### Configurations -/

/-- Admission position by position (R52). -/
theorem tablesAdmitted_iff (rom : Memory) :
    tablesAdmitted rom = true ↔
      (∀ i, i < 4 → fullRowAdmitted (tableFull rom i) = true) ∧
      (∀ i, i < 8 → halfRowAdmitted i (tableHalf rom i) = true) := by
  simp only [tablesAdmitted, Bool.and_eq_true, List.all_eq_true, List.mem_range]
  exact and_comm

/-- The conditions of R5 and those of R52. -/
theorem admitted_iff (c : Config) :
    c.admitted = true ↔ (1 ≤ c.w ∧ 1 ≤ c.dtw ∧ 1 ≤ c.dt.toNat) ∧ tablesAdmitted c.rom = true := by
  simp only [Config.admitted, Bool.and_eq_true, decide_eq_true_eq, and_assoc]

/-- Settles O35: the conditions of R5 as they stand, and each table row by row. -/
theorem admissionSpelledOut : Obligations.AdmissionSpelledOut := by
  intro c
  rw [admitted_iff, tablesAdmitted_iff]
  refine and_congr_right fun _ => and_congr ?_ ?_
  · refine forall₂_congr fun i _ => ?_
    rw [forall_eq]
    exact fullRowAdmitted_iff (tableFull c.rom i)
  · refine forall₂_congr fun i _ => ?_
    rw [forall_eq]
    exact halfRowAdmitted_iff i (tableHalf c.rom i)

/-- Parameters that are not admitted are refused, whatever the ports (R52, R175). -/
theorem step_of_not_admitted {s : State} (h : s.cfg.admitted = false) : step s = .refused .notAConfiguration := by
  have hn : ¬ s.cfg.admitted = true := by simp [h]
  unfold step
  rw [if_neg hn]

/-- Settles O34: the step asks for admission before it looks at any port. -/
theorem otherConfigurationsAreRefused : Obligations.OtherConfigurationsAreRefused :=
  fun _ => step_of_not_admitted

/-- Settles O36: with nothing listed every word is read from the tables of R53 and R54, and the default configuration is
the reset state's, which the invariant admits. -/
theorem defaultTablesAreAdmitted : Obligations.DefaultTablesAreAdmitted :=
  ⟨rfl, rfl, invariantHoldsAtReset.admitted⟩

end Sys2Proof.Machine

/-! ## Words and instructions (30_encoding.md R70 to R79)

The words that decode in a format are exactly the words of its well-formed instructions (`decode_eq_ok_iff`). The codes
of CTL4, CMD2, MODE2 and the ports are short lists. A row is its four fields, so it is read field by field with
`pairOf`. -/

namespace Sys2Proof.Machine

/-! ### The decoder, format by format: the width is tested before the code (R70) -/

/-- A port bit selects the instruction `j` or nothing (R90, R170). -/
def decodePort (j : Instr) (w : Byte) : Except DecodeError Instr := if w = 1#8 then .ok j else .error .notSelected

/-- The row whose fields are the four pairs of a word (R72). -/
def rowOfWord (w : Byte) : Instr := .row (pairOf w 3#2) (pairOf w 2#2) (pairOf w 1#2) (pairOf w 0#2)

theorem decode_ctl4 (w : Byte) : decode .ctl4 w = if 2 ^ 4 ≤ w.toNat then .error .tooWide else decodeCtl4 w.toNat := rfl

theorem decode_cmd2 (w : Byte) : decode .cmd2 w = if 2 ^ 2 ≤ w.toNat then .error .tooWide else decodeCmd2 w.toNat := rfl

theorem decode_mode2 (w : Byte) : decode .mode2 w = if 2 ^ 2 ≤ w.toNat then .error .tooWide else decodeMode2 w.toNat := rfl

theorem decode_tickPort (w : Byte) :
    decode .tickPort w = if 2 ^ 1 ≤ w.toNat then .error .tooWide else decodePort .tickInc w := rfl

theorem decode_rstPort (w : Byte) :
    decode .rstPort w = if 2 ^ 1 ≤ w.toNat then .error .tooWide else decodePort .reset w := rfl

/-- No byte is too wide for a row (R70, R72). -/
theorem decode_row8 (w : Byte) :
    decode .row8 w = if (rowOfWord w).wellFormed then .ok (rowOfWord w) else .error .reservedCommand :=
  if_neg (Nat.not_le.2 w.isLt)

/-! ### Rows and their fields -/

/-- A row is well formed when none of its fields is reserved (R72, R78). -/
theorem wellFormed_row_iff (dd cc bb aa : Pair) :
    (Instr.row dd cc bb aa).wellFormed = true ↔ dd ≠ 3#2 ∧ cc ≠ 3#2 ∧ bb ≠ 3#2 ∧ aa ≠ 3#2 := by
  simp only [Instr.wellFormed, Pair.isCommand, Bool.and_eq_true, bne_iff_ne, and_assoc]

/-- The row of a word is well formed when its fields are legal in the sense of R52 (a). -/
theorem wellFormed_rowOfWord_iff (w : Byte) : (rowOfWord w).wellFormed = true ↔ ∀ p : BitVec 2, pairOf w p ≠ 3#2 := by
  rw [← rowFieldsLegal_iff, rowOfWord, wellFormed_row_iff]
  simp only [rowFieldsLegal, Pair.isCommand, Bool.and_eq_true, bne_iff_ne]
  tauto

/-- The fields `dd`, `cc`, `bb`, `aa` of a row are the pairs of phases 3, 2, 1, 0 of its word (R72). -/
theorem pairOf_encode_row (dd cc bb aa : Pair) :
    pairOf (encode (.row dd cc bb aa)) 0#2 = aa ∧ pairOf (encode (.row dd cc bb aa)) 1#2 = bb ∧
      pairOf (encode (.row dd cc bb aa)) 2#2 = cc ∧ pairOf (encode (.row dd cc bb aa)) 3#2 = dd := by
  decide +revert

/-- The fields of a row are read back from its word. -/
theorem rowOfWord_encode_row (dd cc bb aa : Pair) : rowOfWord (encode (.row dd cc bb aa)) = .row dd cc bb aa := by
  obtain ⟨ha, hb, hc, hd⟩ := pairOf_encode_row dd cc bb aa
  rw [rowOfWord, ha, hb, hc, hd]

/-- A word is put together again from its fields, since it has no bits but theirs. -/
theorem encode_rowOfWord (w : Byte) : encode (rowOfWord w) = w := by
  obtain ⟨h0, h1, h2, h3⟩ := pairOf_encode_row (pairOf w 3#2) (pairOf w 2#2) (pairOf w 1#2) (pairOf w 0#2)
  refine eq_of_pairOf_eq fun p => ?_
  have hp : p = 0#2 ∨ p = 1#2 ∨ p = 2#2 ∨ p = 3#2 := by
    revert p
    decide
  rcases hp with rfl | rfl | rfl | rfl <;> assumption

/-! ### Encode, then decode -/

/-- Settles O3: a row is read back field by field, and every other instruction has one fixed word. -/
theorem decodeOfEncodeIsTheInstruction : Obligations.DecodeOfEncodeIsTheInstruction := by
  intro i hi
  cases i
  case row dd cc bb aa =>
    change decode .row8 (encode (.row dd cc bb aa)) = _
    rw [decode_row8, rowOfWord_encode_row, if_pos hi]
  all_goals rfl

/-! ### Decode, then encode -/

/-- The word `w` is how the format `f` writes the instruction `i`, and `f` admits it. -/
def IsWordOf (f : Format) (w : Byte) (i : Instr) : Prop := encode i = w ∧ i.format = f ∧ i.wellFormed = true

theorem isWordOf_of_decodeCtl4 {w : Byte} {i : Instr} (h : decodeCtl4 w.toNat = .ok i) : IsWordOf .ctl4 w i := by
  unfold decodeCtl4 at h
  split at h <;> cases h
  all_goals exact ⟨BitVec.eq_of_toNat_eq (Eq.symm ‹_›), rfl, rfl⟩

theorem isWordOf_of_decodeCmd2 {w : Byte} {i : Instr} (h : decodeCmd2 w.toNat = .ok i) : IsWordOf .cmd2 w i := by
  unfold decodeCmd2 at h
  split at h <;> cases h
  all_goals exact ⟨BitVec.eq_of_toNat_eq (Eq.symm ‹_›), rfl, rfl⟩

theorem isWordOf_of_decodeMode2 {w : Byte} {i : Instr} (h : decodeMode2 w.toNat = .ok i) : IsWordOf .mode2 w i := by
  unfold decodeMode2 at h
  split at h <;> cases h
  all_goals exact ⟨BitVec.eq_of_toNat_eq (Eq.symm ‹_›), rfl, rfl⟩

theorem isWordOf_of_decodePort {f : Format} {w : Byte} {i j : Instr} (hj : IsWordOf f 1#8 j) (h : decodePort j w = .ok i) :
    IsWordOf f w i := by
  unfold decodePort at h
  split at h <;> cases h
  next hw => exact hw ▸ hj

/-- What passes the width test is what the format's codes give. -/
theorem eq_ok_of_widthTest {c : Prop} [Decidable c] {x : Except DecodeError Instr} {i : Instr}
    (h : (if c then .error .tooWide else x) = .ok i) : x = .ok i := by
  split at h
  · cases h
  · exact h

/-- Settles O4, format by format: a row is put together from its fields, and every other format is a list of codes. -/
theorem encodeOfDecodeIsTheWord : Obligations.EncodeOfDecodeIsTheWord := by
  intro f w i h
  cases f
  case ctl4 => exact isWordOf_of_decodeCtl4 (eq_ok_of_widthTest (decode_ctl4 w ▸ h))
  case cmd2 => exact isWordOf_of_decodeCmd2 (eq_ok_of_widthTest (decode_cmd2 w ▸ h))
  case row8 =>
    rw [decode_row8] at h
    split at h <;> cases h
    next hf => exact ⟨encode_rowOfWord w, rfl, hf⟩
  case mode2 => exact isWordOf_of_decodeMode2 (eq_ok_of_widthTest (decode_mode2 w ▸ h))
  case tickPort => exact isWordOf_of_decodePort ⟨rfl, rfl, rfl⟩ (eq_ok_of_widthTest (decode_tickPort w ▸ h))
  case rstPort => exact isWordOf_of_decodePort ⟨rfl, rfl, rfl⟩ (eq_ok_of_widthTest (decode_rstPort w ▸ h))

/-- The decoder answers with exactly the instructions that have the word in the format (R79). -/
theorem decode_eq_ok_iff {f : Format} {w : Byte} {i : Instr} : decode f w = .ok i ↔ IsWordOf f w i := by
  refine ⟨encodeOfDecodeIsTheWord f w i, ?_⟩
  rintro ⟨rfl, rfl, hi⟩
  exact decodeOfEncodeIsTheInstruction i hi

/-- Settles O1: each of these words is the word of the instruction named. -/
theorem sampleWordsDecode : Obligations.SampleWordsDecode := by
  refine ⟨?_, ?_, ?_, ?_, ?_, ?_, ?_, ?_, ?_, ?_, ?_, ?_⟩ <;> exact decode_eq_ok_iff.2 ⟨rfl, rfl, rfl⟩

/-! ### Refused words -/

/-- A word is refused for its width or for its code. -/
theorem widthTest_error_iff {c : Prop} [Decidable c] {x : Except DecodeError Instr} :
    (∃ e, (if c then .error .tooWide else x) = .error e) ↔ c ∨ ∃ e, x = .error e := by
  split <;> simp [*]

theorem decodeCtl4_error_iff : ∀ n : Nat, (∃ e, decodeCtl4 n = .error e) ↔ 9 ≤ n
  | 0 | 1 | 2 | 3 | 4 | 5 | 6 | 7 | 8 | _ + 9 => by simp [decodeCtl4]

theorem decodeCmd2_error_iff : ∀ n : Nat, (∃ e, decodeCmd2 n = .error e) ↔ 3 ≤ n
  | 0 | 1 | 2 | _ + 3 => by simp [decodeCmd2]

theorem decodeMode2_error_iff : ∀ n : Nat, (∃ e, decodeMode2 n = .error e) ↔ n ≠ 1 ∧ n ≠ 2
  | 0 | 1 | 2 | _ + 3 => by simp [decodeMode2]

theorem decodePort_error_iff (j : Instr) (w : Byte) : (∃ e, decodePort j w = .error e) ↔ w ≠ 1#8 := by
  unfold decodePort
  split <;> simp [*]

/-- Refused rows are those with a reserved field (R78). -/
theorem decode_row8_error_iff (w : Byte) : (∃ e, decode .row8 w = .error e) ↔ ∃ p : BitVec 2, pairOf w p = 3#2 := by
  have hw := wellFormed_rowOfWord_iff w
  rw [decode_row8]
  split
  next hf => simpa using hw.1 hf
  next hf => simpa [hw] using hf

/-- Settles O2: in each format the refused codes, among which the words that are too wide disappear. -/
theorem refusedWordsExactly : Obligations.RefusedWordsExactly := by
  intro w
  refine ⟨?_, ?_, ?_, ?_, ?_, ?_⟩
  · rw [decode_ctl4, widthTest_error_iff, decodeCtl4_error_iff]
    omega
  · rw [decode_cmd2, widthTest_error_iff, decodeCmd2_error_iff]
    omega
  · simp only [decode_row8_error_iff, both_closed_iff]
  · rw [decode_mode2, widthTest_error_iff, decodeMode2_error_iff]
    bv_omega
  · rw [decode_tickPort, widthTest_error_iff, decodePort_error_iff]
    bv_omega
  · rw [decode_rstPort, widthTest_error_iff, decodePort_error_iff]
    bv_omega

/-! ### Rows and step modes as instructions -/

/-- A row loads its word into `ROW` if it is well formed, and is refused otherwise (R72, R78; log 9). -/
theorem exec_row (dd cc bb aa : Pair) (s : State) :
    exec (.row dd cc bb aa) s =
      if (Instr.row dd cc bb aa).wellFormed then .next (s.withRegs (s.regs.loadRow (encode (.row dd cc bb aa))))
      else .refused .reservedCommand := rfl

/-- Settles O18: what is loaded is the row's word, and its pairs are the row's fields. -/
theorem rowIsLoaded : Obligations.RowIsLoaded := by
  intro s dd cc bb aa
  have hw := wellFormed_row_iff dd cc bb aa
  refine ⟨fun hd hc hb ha => ⟨encode (.row dd cc bb aa), ?_, pairOf_encode_row dd cc bb aa⟩, fun hr => ?_⟩
  · rw [exec_row, if_pos (hw.2 ⟨hd, hc, hb, ha⟩)]
    rfl
  · rw [exec_row, if_neg (by rw [hw]; tauto)]

/-- The two MODE2 rows latch their code (R74; log 10). -/
theorem exec_modeFull (s : State) : exec .modeFull s = .next (s.withRegs (s.regs.latchMode modeFullCode)) := rfl

@[inherit_doc exec_modeFull]
theorem exec_modeHalf (s : State) : exec .modeHalf s = .next (s.withRegs (s.regs.latchMode modeHalfCode)) := rfl

/-- Settles O19: `MODE_L` is written with the codes of R74 and no other register is. -/
theorem modesAreLatched : Obligations.ModesAreLatched :=
  fun s => ⟨exec_modeFull s, exec_modeHalf s⟩

/-! ### Refused steps -/

@[simp] theorem andThen_refused (e : Refusal) (f : State → Host.Outcome State Fault Refusal) :
    andThen (.refused e) f = .refused e := rfl

/-- A step without reset is the micro-operation, then the tick, then the step boundary (R7). -/
theorem step_of_no_rst {s : State} (ha : s.cfg.admitted = true) (hr : s.ports.rst = false) :
    step s = andThen (andThen (exec (Ctl.instr s.regs.ctl) s) (tickPart s)) (fun t => .next t.advance) := by
  unfold step cycle microStep
  rw [if_pos ha, decode_rstWord, hr, decode_ctlWord]
  rfl

/-- Settles O25: `CTL`'s code decodes to its own micro-operation only, and a refusal passes both parts of the step. -/
theorem stepPassesOnARefusal : Obligations.StepPassesOnARefusal := by
  intro s i e ha hr hd he
  obtain rfl := instr_of_decode hd
  rw [step_of_no_rst ha hr, he, andThen_refused, andThen_refused]

end Sys2Proof.Machine

/-! ## The timebase (40_timebase.md R90 to R98)

A wait is one S_WENT step and then S_SPIN steps, each of which counts its tick and compares. While the exit test fails,
the registers are those of the wait's entry with the ticks counted (`Regs.countTicks`), so a wait is one induction
(`runs_spinning`), whether it is seen from its entry or joined in the middle. -/

namespace Sys2Proof.Machine

/-! ### Counting modulo `2^W` (R95) -/

/-- The difference moves with the ticks counted, modulo `2^W`. -/
theorem toNat_elapsed_add {w : Nat} (tick t0 : BitVec w) (n : Nat) :
    (tick + BitVec.ofNat w n - t0).toNat = ((tick - t0).toNat + n) % 2 ^ w := by
  rw [add_sub_right_comm, BitVec.toNat_add, BitVec.toNat_ofNat, Nat.add_mod_mod]

/-- From wait entry on the difference is the number of ticks counted, modulo `2^W`. -/
theorem toNat_elapsed_from_entry {w : Nat} (t0 : BitVec w) (n : Nat) :
    (t0 + BitVec.ofNat w n - t0).toNat = n % 2 ^ w := by
  rw [toNat_elapsed_add, BitVec.sub_self, BitVec.toNat_zero, Nat.zero_add]

/-- Settles O38, by the difference `n` ticks after `T0`. -/
theorem elapsedCountsAcrossTheWrap : Obligations.ElapsedCountsAcrossTheWrap := by
  intro w t0 d n
  have hn := toNat_elapsed_from_entry t0 n
  exact ⟨hn, by rw [expired_iff, hn], tickSucc_toNat t0⟩

/-- Settles O20: TICKINC is the increment of the one register. -/
theorem tickIncAddsOne : Obligations.TickIncAddsOne :=
  fun s => ⟨tickSucc s.regs.tick, exec_tickInc s, tickSucc_toNat s.regs.tick⟩

/-! ### The two micro-operations of a wait -/

/-- S_WENT with a duration captures the wait (R92). -/
theorem exec_sWent_of_speed {s : State} (hd : s.ports.speed ≠ 0#s.cfg.w) :
    exec .sWent s = .next (s.withRegs ((s.regs.captureWait s.ports.speed).goto .sSpin)) := if_neg hd

/-- S_WENT without a duration raises BADSPEED (R92, R152). -/
theorem exec_sWent_of_no_speed {s : State} (hd : s.ports.speed = 0#s.cfg.w) :
    exec .sWent s = .next (s.withRegs (s.regs.haltEntry .badSpeed)) := if_pos hd

/-- S_SPIN with a stop raises STOP, whatever the time (R93, R154). -/
theorem exec_sSpin_of_stop {s : State} (hs : s.ports.stop = true) :
    exec .sSpin s = .next (s.withRegs (s.regs.haltEntry .stop)) := if_pos hs

/-- Where S_SPIN without a stop goes (R93). -/
def Regs.spinTarget {w dtw : Nat} (r : Regs w dtw) : Ctl := if expired r.tick r.t0 r.speedL then .sFetch else .sSpin

/-- S_SPIN without a stop only writes `CTL`, by its exit test (R93). -/
theorem exec_sSpin_of_no_stop {s : State} (hs : s.ports.stop = false) :
    exec .sSpin s = .next (s.withRegs (s.regs.goto s.regs.spinTarget)) := by
  change execSSpin s = _
  unfold execSSpin Regs.spinTarget
  rw [if_neg (by simp [hs])]
  split <;> rfl

theorem Regs.spinTarget_of_expired {w dtw : Nat} {r : Regs w dtw} (h : expired r.tick r.t0 r.speedL = true) :
    r.spinTarget = .sFetch := if_pos h

theorem Regs.spinTarget_of_not_expired {w dtw : Nat} {r : Regs w dtw} (h : ¬ expired r.tick r.t0 r.speedL = true) :
    r.spinTarget = .sSpin := if_neg h

/-- Settles O14, by the two cases of the duration. -/
theorem sWentCapturesTheWait : Obligations.SWentCapturesTheWait :=
  fun _ => ⟨exec_sWent_of_speed, exec_sWent_of_no_speed⟩

/-- Settles O15: a stop is tested first, then the exit test says where S_SPIN goes. -/
theorem sSpinTestsStopThenTime : Obligations.SSpinTestsStopThenTime := by
  intro s
  refine ⟨fun hs ht => ?_, fun hs ht => ?_, exec_sSpin_of_stop⟩
  · rw [exec_sSpin_of_no_stop hs, Regs.spinTarget_of_expired ((expired_iff ..).2 ht)]
    rfl
  · rw [exec_sSpin_of_no_stop hs, Regs.spinTarget_of_not_expired (by rw [expired_iff]; omega)]
    rfl

/-! ### The tick beside the micro-operation (R90) -/

/-- No micro-operation writes `TICK` (R28). -/
theorem MicroEffect.tick_eq {s : State} {q : Regs s.cfg.w s.cfg.dtw} (h : MicroEffect s q) : q.tick = s.regs.tick := by
  unfold MicroEffect at h
  split at h
  next => obtain ⟨-, -, rfl⟩ | ⟨-, -, rfl⟩ | ⟨-, rfl⟩ := h <;> rfl
  next => subst h; rfl
  next => subst h; rfl
  next => obtain ⟨-, rfl⟩ | ⟨-, rfl⟩ := h <;> rfl
  next => obtain ⟨-, ⟨-, rfl⟩ | ⟨-, rfl⟩⟩ := h <;> rfl
  next => subst h; rfl
  next => obtain ⟨-, rfl⟩ | ⟨-, rfl⟩ := h <;> rfl
  next => obtain ⟨-, rfl⟩ | ⟨-, -, rfl⟩ | ⟨-, -, rfl⟩ := h <;> rfl
  next => subst h; rfl

/-- A micro-operation has one effect in a state: the conditions of its branches exclude each other (R136). -/
theorem MicroEffect.unique {s : State} {q q' : Regs s.cfg.w s.cfg.dtw} (h : MicroEffect s q) (h' : MicroEffect s q') :
    q' = q := by
  unfold MicroEffect at h h'
  cases hc : s.regs.ctl <;> rw [hc] at h h' <;> dsimp only at h h'
  case sInit =>
    obtain ⟨hm, hd, rfl⟩ | ⟨hm, hd, rfl⟩ | ⟨hm, rfl⟩ := h
    · simpa [hm, hd] using h'
    · simpa [hm, hd] using h'
    · simpa [hm] using h'
  case sDead =>
    obtain ⟨hd, rfl⟩ | ⟨hd, rfl⟩ := h
    · simpa [hd, Nat.not_le.2 hd] using h'
    · simpa [hd, Nat.not_lt.2 hd] using h'
  case sMake =>
    obtain ⟨hf, ⟨hp, rfl⟩ | ⟨hp, rfl⟩⟩ := h
    · simpa [hf, hp] using h'.2
    · simpa [hf, hp] using h'.2
  case sWent =>
    obtain ⟨hd, rfl⟩ | ⟨hd, rfl⟩ := h
    · simpa [hd] using h'
    · simpa [hd] using h'
  case sSpin =>
    obtain ⟨hs, rfl⟩ | ⟨hs, he, rfl⟩ | ⟨hs, he, rfl⟩ := h
    · simpa [hs] using h'
    · simpa [hs, he] using h'
    · simpa [hs, he] using h'
  all_goals rw [h', h]

/-- A state whose next inputs are `p` but for port `tick`. -/
def stateWithTick (c : Config) (r : Regs c.w c.dtw) (p : Ports c.w) (rest : List (Ports c.w)) (k : Nat) (b : Bool) : State :=
  ⟨c, r, { p with tick := b } :: rest, k⟩

/-- No micro-operation looks at port `tick` (R32, R157). -/
theorem MicroEffect.of_tick {c : Config} {r q : Regs c.w c.dtw} {p : Ports c.w} {rest : List (Ports c.w)} {k : Nat}
    {b : Bool} (b' : Bool) (h : MicroEffect (stateWithTick c r p rest k b) q) :
    MicroEffect (stateWithTick c r p rest k b') q := h

/-- The registers a step with reset leaves (R170). -/
theorem regs_of_step_rst {s : State} {r : Regs s.cfg.w s.cfg.dtw} (hr : s.ports.rst = true)
    (h : step s = .next (s.after 1 r)) : r = Regs.reset s.cfg.w s.cfg.dtw := by
  obtain ⟨-, he⟩ | ⟨hn, -⟩ := step_regs_cases h
  · exact he
  · simp [hr] at hn

/-- The registers a step without reset leaves (R7). -/
theorem regs_of_step_no_rst {s : State} {r : Regs s.cfg.w s.cfg.dtw} (hr : s.ports.rst = false)
    (h : step s = .next (s.after 1 r)) : ∃ q, MicroEffect s q ∧ r = q.afterTick s.ports := by
  obtain ⟨hn, -⟩ | ⟨-, he⟩ := step_regs_cases h
  · simp [hr] at hn
  · exact he

/-- Settles O30: a reset step ignores the tick; in any other the micro-operation has the same one effect, which keeps
`TICK`, and the tick part is all that differs. -/
theorem tickTouchesOnlyTheCounter : Obligations.TickTouchesOnlyTheCounter := by
  intro c r r0 r1 p rest k h0 h1
  cases hr : p.rst with
  | true =>
    have hr0 : r0 = Regs.reset c.w c.dtw := regs_of_step_rst (s := stateWithTick c r p rest k false) hr h0
    have hr1 : r1 = Regs.reset c.w c.dtw := regs_of_step_rst (s := stateWithTick c r p rest k true) hr h1
    exact ⟨by simp, fun _ => hr1.trans hr0.symm⟩
  | false =>
    obtain ⟨q, hq, he0⟩ := regs_of_step_no_rst (s := stateWithTick c r p rest k false) hr h0
    obtain ⟨q1, hq1, he1⟩ := regs_of_step_no_rst (s := stateWithTick c r p rest k true) hr h1
    obtain rfl : q1 = q := (hq.of_tick true).unique hq1
    have htick : q1.tick = r.tick := hq.tick_eq
    obtain rfl : r0 = q1 := he0.trans (Regs.afterTick_of_no_tick q1 rfl)
    obtain rfl : r1 = r0.countTick := he1.trans (Regs.afterTick_of_tick r0 rfl)
    refine ⟨fun _ => ⟨htick, ?_, rfl⟩, by simp⟩
    rw [← htick]
    exact tickSucc_toNat r0.tick

/-! ### Registers with ticks counted -/

/-- The registers `n` ticks later, where nothing else happens (R90). -/
def Regs.countTicks {w dtw : Nat} (r : Regs w dtw) (n : Nat) : Regs w dtw := { r with tick := r.tick + BitVec.ofNat w n }

section
variable {w dtw : Nat} (r : Regs w dtw)

@[simp] theorem Regs.countTicks_zero : r.countTicks 0 = r := by simp [Regs.countTicks]
@[simp] theorem Regs.countTicks_ctl (n : Nat) : (r.countTicks n).ctl = r.ctl := rfl
@[simp] theorem Regs.countTicks_pos (n : Nat) : (r.countTicks n).pos = r.pos := rfl
@[simp] theorem Regs.countTicks_modeL (n : Nat) : (r.countTicks n).modeL = r.modeL := rfl
@[simp] theorem Regs.countTicks_row (n : Nat) : (r.countTicks n).row = r.row := rfl
@[simp] theorem Regs.countTicks_ph (n : Nat) : (r.countTicks n).ph = r.ph := rfl
@[simp] theorem Regs.countTicks_dtc (n : Nat) : (r.countTicks n).dtc = r.dtc := rfl
@[simp] theorem Regs.countTicks_out (n : Nat) : (r.countTicks n).out = r.out := rfl
@[simp] theorem Regs.countTicks_tick (n : Nat) : (r.countTicks n).tick = r.tick + BitVec.ofNat w n := rfl
@[simp] theorem Regs.countTicks_t0 (n : Nat) : (r.countTicks n).t0 = r.t0 := rfl
@[simp] theorem Regs.countTicks_speedL (n : Nat) : (r.countTicks n).speedL = r.speedL := rfl
@[simp] theorem Regs.countTicks_cause (n : Nat) : (r.countTicks n).cause = r.cause := rfl
@[simp] theorem Regs.goto_countTicks (n : Nat) (c : Ctl) : (r.countTicks n).goto c = (r.goto c).countTicks n := rfl

/-- Going where one is changes nothing. -/
theorem Regs.goto_self {c : Ctl} (h : r.ctl = c) : r.goto c = r := by
  subst h
  rfl

/-- The tick of one more step is one more tick counted, or none. -/
theorem Regs.afterTick_countTicks (n : Nat) (p : Ports w) :
    (r.countTicks n).afterTick p = r.countTicks (n + if p.tick then 1 else 0) := by
  cases hp : p.tick with
  | false => rw [Regs.afterTick_of_no_tick _ hp]; rfl
  | true =>
    rw [Regs.afterTick_of_tick _ hp]
    simp [Regs.countTick, Regs.countTicks, tickSucc, BitVec.ofNat_add, BitVec.add_assoc]

/-- The exit test of R93 succeeds `n` ticks later. -/
def Regs.expiredAfter (n : Nat) : Prop := expired (r.tick + BitVec.ofNat w n) r.t0 r.speedL = true

/-- It does exactly when the difference, moved by `n` modulo `2^W`, has reached `SPEED_L` (R95). -/
theorem Regs.expiredAfter_iff (n : Nat) :
    r.expiredAfter n ↔ r.speedL.toNat ≤ ((r.tick - r.t0).toNat + n) % 2 ^ w := by
  rw [Regs.expiredAfter, expired_iff, toNat_elapsed_add]

end

/-! ### A wait in progress -/

section
variable {s : State} {q : Regs s.cfg.w s.cfg.dtw}

/-- One S_SPIN step at the end of a run (R93, R90). -/
theorem runs_spin_snoc {n : Nat} (ha : s.cfg.admitted = true) (hc : q.ctl = .sSpin)
    (hrun : runs n s = .next (s.after n (q.countTicks (s.ticksIn n)))) (hr : (s.portsIn n).rst = false)
    (hs : (s.portsIn n).stop = false) :
    runs (n + 1) s =
      .next (s.after (n + 1) ((q.goto (q.countTicks (s.ticksIn n)).spinTarget).countTicks (s.ticksIn (n + 1)))) := by
  have hstop : (s.after n (q.countTicks (s.ticksIn n))).ports.stop = false := by rw [State.ports_after, hs]
  have hspin := exec_sSpin_of_no_stop hstop
  have hinstr : Ctl.instr (q.countTicks (s.ticksIn n)).ctl = .sSpin := by rw [Regs.countTicks_ctl, hc, Ctl.instr]
  rw [← hinstr] at hspin
  rw [runs_snoc_exec ha hrun hr hspin, State.after_regs, Regs.goto_countTicks, Regs.afterTick_countTicks]
  rfl

/-- While the exit test fails, a wait spins and counts (R94 (a), (f)). -/
theorem runs_spinning {i m : Nat} (ha : s.cfg.admitted = true) (hc : q.ctl = .sSpin) (him : i ≤ m)
    (hrun : runs i s = .next (s.after i (q.countTicks (s.ticksIn i)))) (hr : s.noReset m)
    (hs : ∀ j, i ≤ j → j < m → (s.portsIn j).stop = false) (hshort : ∀ j, i ≤ j → j < m → ¬ q.expiredAfter (s.ticksIn j)) :
    runs m s = .next (s.after m (q.countTicks (s.ticksIn m))) := by
  induction m, him using Nat.le_induction with
  | base => exact hrun
  | succ m him ih =>
    have hrun' := ih (noReset_mono hr m.le_succ) (fun j hi hj => hs j hi (by omega)) (fun j hi hj => hshort j hi (by omega))
    have hstay : (q.countTicks (s.ticksIn m)).spinTarget = .sSpin :=
      Regs.spinTarget_of_not_expired (hshort m him m.lt_succ_self)
    rw [runs_spin_snoc ha hc hrun' (hr m m.lt_succ_self) (hs m him m.lt_succ_self), hstay, Regs.goto_self q hc]

/-- When the exit test succeeds, the wait returns (R94 (b), (c)). -/
theorem runs_spin_exit {i m : Nat} (ha : s.cfg.admitted = true) (hc : q.ctl = .sSpin) (him : i ≤ m)
    (hrun : runs i s = .next (s.after i (q.countTicks (s.ticksIn i)))) (hr : s.noReset (m + 1))
    (hs : ∀ j, i ≤ j → j ≤ m → (s.portsIn j).stop = false) (hshort : ∀ j, i ≤ j → j < m → ¬ q.expiredAfter (s.ticksIn j))
    (hexit : q.expiredAfter (s.ticksIn m)) :
    runs (m + 1) s = .next (s.after (m + 1) ((q.goto .sFetch).countTicks (s.ticksIn (m + 1)))) := by
  have hrun' := runs_spinning ha hc him hrun (noReset_mono hr m.le_succ) (fun j hi hj => hs j hi hj.le) hshort
  have hleave : (q.countTicks (s.ticksIn m)).spinTarget = .sFetch := Regs.spinTarget_of_expired hexit
  rw [runs_spin_snoc ha hc hrun' (hr m m.lt_succ_self) (hs m him le_rfl), hleave]

/-- A wait that fails its exit test at every step so far has not wrapped: ticks come one at a time, so the difference
cannot pass `SPEED_L` unseen (R95, R96). -/
theorem elapsed_add_ticksIn_lt (r : Regs s.cfg.w s.cfg.dtw) :
    ∀ n : Nat, (∀ j, j ≤ n → ¬ r.expiredAfter (s.ticksIn j)) → (r.tick - r.t0).toNat + s.ticksIn n < r.speedL.toNat
  | 0, h => by
    have hfail := h 0 le_rfl
    rwa [Regs.expiredAfter_iff, Nat.not_le, State.ticksIn, Nat.add_zero, Nat.mod_eq_of_lt (BitVec.isLt _)] at hfail
  | n + 1, h => by
    have ih := elapsed_add_ticksIn_lt r n (fun j hj => h j (by omega))
    have hone := ticksIn_succ_le s n
    have hmax := r.speedL.isLt
    have hfail := h (n + 1) le_rfl
    rwa [Regs.expiredAfter_iff, Nat.not_le, Nat.mod_eq_of_lt (by omega)] at hfail

end

/-- Settles O49: the exit test succeeds at some step by which `SPEED_L` ticks have come (`elapsed_add_ticksIn_lt`), and
at the first such step the wait returns. -/
theorem enoughTicksEndTheWait : Obligations.EnoughTicksEndTheWait := by
  classical
  intro s n ha hc hr hs hticks
  have hexit : ∃ m, m ≤ n ∧ s.regs.expiredAfter (s.ticksIn m) := by
    by_contra hnone
    have hlt := elapsed_add_ticksIn_lt s.regs n (fun j hj hnow => hnone ⟨j, hj, hnow⟩)
    omega
  obtain ⟨hm, hnow⟩ := Nat.find_spec hexit
  have hbefore : ∀ j, 0 ≤ j → j < Nat.find hexit → ¬ s.regs.expiredAfter (s.ticksIn j) :=
    fun j _ hj hnow => Nat.find_min hexit hj ⟨by omega, hnow⟩
  have hstart : runs 0 s = .next (s.after 0 (s.regs.countTicks (s.ticksIn 0))) := by
    rw [State.ticksIn, Regs.countTicks_zero]
    rfl
  have hrun := runs_spin_exit ha hc (Nat.zero_le _) hstart (noReset_mono hr (by omega)) (fun j _ hj => hs j (by omega))
    hbefore hnow
  exact ⟨_, hm, _, hrun, rfl, rfl, rfl⟩

/-! ### A wait from its entry -/

/-- The registers a wait of `d` ticks spins with, before any tick is counted (R92). -/
def Regs.enterWait {w dtw : Nat} (r : Regs w dtw) (d : BitVec w) : Regs w dtw := (r.captureWait d).goto .sSpin

/-- A wait has expired exactly when the ticks counted since its entry, modulo `2^W`, have reached `d` (R95). -/
theorem Regs.expiredAfter_enterWait_iff {w dtw : Nat} (r : Regs w dtw) (d : BitVec w) (n : Nat) :
    (r.enterWait d).expiredAfter n ↔ d.toNat ≤ n % 2 ^ w := by
  rw [Regs.expiredAfter, expired_iff]
  change d.toNat ≤ (r.tick + BitVec.ofNat w n - r.tick).toNat ↔ _
  rw [toNat_elapsed_from_entry]

/-- With fewer ticks than its duration a wait has not expired. -/
theorem Regs.not_expiredAfter_enterWait {w dtw : Nat} (r : Regs w dtw) {d : BitVec w} {n : Nat} (h : n < d.toNat) :
    ¬ (r.enterWait d).expiredAfter n := by
  rw [Regs.expiredAfter_enterWait_iff, Nat.not_le]
  exact (Nat.mod_le n _).trans_lt h

/-- With as many ticks as its duration it has. -/
theorem Regs.expiredAfter_enterWait {w dtw : Nat} (r : Regs w dtw) (d : BitVec w) :
    (r.enterWait d).expiredAfter d.toNat := by
  rw [Regs.expiredAfter_enterWait_iff, Nat.mod_eq_of_lt d.isLt]

/-- The S_WENT step enters the wait, and a tick in it is the wait's first (R92, R94). -/
theorem runs_enterWait {s : State} (ha : s.cfg.admitted = true) (hc : s.regs.ctl = .sWent)
    (hd : s.ports.speed ≠ 0#s.cfg.w) (hr : s.ports.rst = false) :
    runs 1 s = .next (s.after 1 ((s.regs.enterWait s.ports.speed).countTicks (s.ticksIn 1))) := by
  have he : exec (Ctl.instr s.regs.ctl) s = .next (s.withRegs (s.regs.enterWait s.ports.speed)) := by
    rw [hc]
    exact exec_sWent_of_speed hd
  have hcount := (s.regs.enterWait s.ports.speed).afterTick_countTicks 0 s.ports
  rw [Regs.countTicks_zero] at hcount
  rw [runs_one, step_of_exec ha hr he, hcount]
  rfl

/-- The first step by which a wait's ticks have been counted has counted exactly as many (R94 (c)). -/
theorem ticksIn_eq_of_least {s : State} {m d : Nat} (hd : 0 < d) (hm : 1 ≤ m)
    (hbefore : ∀ j, 1 ≤ j → j < m → s.ticksIn j < d) (h : d ≤ s.ticksIn m) : s.ticksIn m = d := by
  obtain ⟨n, rfl⟩ := Nat.exists_eq_add_of_le' hm
  have hone := ticksIn_succ_le s n
  have hprev : s.ticksIn n < d := by
    cases n with
    | zero => exact hd
    | succ n => exact hbefore (n + 1) (by omega) (by omega)
  omega

/-- Settles O47: the exit test fails at every step that has seen fewer than `d` ticks. -/
theorem waitSpinsWhileTicksAreMissing : Obligations.WaitSpinsWhileTicksAreMissing := by
  intro s m ha hc hd hm hr hs hmissing
  exact runs_spinning (q := s.regs.enterWait s.ports.speed) ha rfl hm (runs_enterWait ha hc hd (hr 0 hm)) hr hs
    (fun j hj hjm => s.regs.not_expiredAfter_enterWait (hmissing j hj hjm))

/-- Settles O48: the first step with `d` ticks counted sees exactly `d`, there the exit test succeeds for the first time,
and the exit step may count one more. -/
theorem waitReturnsAfterItsTicks : Obligations.WaitReturnsAfterItsTicks := by
  intro s m ha hc hd hm hr hs hmissing henough
  have hpos : 0 < s.ports.speed.toNat := Nat.pos_of_ne_zero fun h => hd (BitVec.eq_of_toNat_eq h)
  have hexact := ticksIn_eq_of_least hpos hm hmissing henough
  have hrun := runs_spin_exit (q := s.regs.enterWait s.ports.speed) ha rfl hm (runs_enterWait ha hc hd (hr 0 (by omega))) hr
    hs (fun j hj hjm => s.regs.not_expiredAfter_enterWait (hmissing j hj hjm))
    (by rw [hexact]; exact s.regs.expiredAfter_enterWait _)
  have htick : s.regs.tick + BitVec.ofNat s.cfg.w (s.ticksIn (m + 1)) =
      s.regs.tick + s.ports.speed + (if (s.portsIn m).tick then 1#s.cfg.w else 0#s.cfg.w) := by
    rw [State.ticksIn, hexact, BitVec.ofNat_add, BitVec.ofNat_toNat, BitVec.setWidth_eq, ← BitVec.add_assoc]
    split <;> rfl
  rw [← htick]
  exact ⟨hexact, hrun⟩

end Sys2Proof.Machine

/-! ## The phase driver (41_phase_driver.md R110 to R121)

A phase is written in two steps, its opening in S_BREAK and its command in S_MAKE, and both are `putPair`, so what a step
does to the other phases is said once (`onlyPairWritten_putPair`). A phase update is then one run: S_BREAK, a countdown in
S_DEAD (`runs_sDead`), S_MAKE; its registers are known whole at every boundary. -/

namespace Sys2Proof.Machine

/-! ### The lines after a pair is written (R121) -/

/-- The write of a pair sets the two switches of its phase by the pair's bits, and no other phase's (R27, R121). -/
theorem onlyPairWritten_putPair (v : Byte) (p : BitVec 2) (c : Pair) :
    onlyPairWritten v p (c.getLsbD 1) (c.getLsbD 0) (putPair v p c) := by
  obtain ⟨hhigh, hlow⟩ := (pairOf_eq_iff _ p c).1 (pairOf_putPair_self v p c)
  exact ⟨hhigh, hlow, fun q hq => (pairOf_eq_pairOf_iff _ _ q).1 (pairOf_putPair_other p q hq v c)⟩

/-- Of two writes of one phase the second stands. -/
theorem putPair_putPair (v : Byte) (p : BitVec 2) (c c' : Pair) : putPair (putPair v p c) p c' = putPair v p c' := by
  refine eq_of_pairOf_eq fun q => ?_
  by_cases hq : q = p
  · rw [hq, pairOf_putPair_self, pairOf_putPair_self]
  · simp only [pairOf_putPair_other p q hq]

/-- A write on an open phase opens no switch (R112). -/
theorem closed_putPair_of_open {v : Byte} {p : BitVec 2} (hopen : pairOf v p = 0b00#2) (c : Pair) (q : BitVec 2) :
    (highSide v q = true → highSide (putPair v p c) q = true) ∧ (lowSide v q = true → lowSide (putPair v p c) q = true) := by
  by_cases hq : q = p
  · obtain ⟨hhigh, hlow⟩ := (pairOf_eq_iff v p _).1 hopen
    simp [hq, hhigh, hlow]
  · obtain ⟨hhigh, hlow⟩ := (pairOf_eq_pairOf_iff _ _ q).1 (pairOf_putPair_other p q hq v c)
    simp [hhigh, hlow]

/-! ### Commands (R71, R113 to R115) -/

/-- The row of the opcode table that commands an Output State (R71). -/
def OutputState.instr : OutputState → Instr
  | .floating => .float
  | .driveLow => .dLow
  | .driveHigh => .dHigh

/-- A command's code is its pair (R71). -/
theorem decode_command (o : OutputState) : decode .cmd2 (o.pair.setWidth 8) = .ok (OutputState.instr o) := by
  cases o <;> exact decode_eq_ok_iff.2 ⟨rfl, rfl, rfl⟩

/-- A command writes its pair on the phase `PH` (R113 to R115; log 11). -/
theorem exec_command (o : OutputState) (s : State) :
    exec (OutputState.instr o) s = .next (s.withRegs (s.regs.writePair o.pair)) := by
  cases o <;> rfl

/-- An Output State is read back from its pair (R71). -/
theorem ofPair_pair (o : OutputState) : OutputState.ofPair o.pair = some o := by
  cases o <;> rfl

/-- No Output State closes both switches (R71). -/
theorem pair_ne_reserved (o : OutputState) : o.pair ≠ 3#2 := by
  cases o <;> decide

/-- A field that decodes is the pair of an Output State, and decodes to its command. -/
theorem exists_outputState_of_decode {c : Pair} {i : Instr} (h : decode .cmd2 (c.setWidth 8) = .ok i) :
    ∃ o : OutputState, c = o.pair ∧ i = OutputState.instr o := by
  obtain ⟨rfl, -⟩ | ⟨-, o, -, rfl⟩ := ofPair_cases c
  · cases h
  · rw [decode_command] at h
    cases h
    exact ⟨o, rfl, rfl⟩

/-- Settles O17: each of the three commands is the write of its pair. -/
theorem commandsWriteTheirPair : Obligations.CommandsWriteTheirPair :=
  fun s => ⟨⟨_, exec_command .floating s, onlyPairWritten_putPair _ _ _⟩,
    ⟨_, exec_command .driveLow s, onlyPairWritten_putPair _ _ _⟩,
    ⟨_, exec_command .driveHigh s, onlyPairWritten_putPair _ _ _⟩⟩

/-! ### The three micro-operations of a phase update -/

/-- The phase `PH` open, with dead time `n` to come (R110). -/
def Regs.openPhase {w dtw : Nat} (r : Regs w dtw) (n : BitVec dtw) : Regs w dtw := (r.writePair 0b00#2).setDead n

/-- The move to the next phase's S_BREAK, or to S_ADV after the fourth phase (R112). -/
def Regs.nextPhase {w dtw : Nat} (r : Regs w dtw) : Regs w dtw :=
  { r with
    ph := if r.ph = 3#2 then 3#2 else r.ph + 1#2
    ctl := if r.ph = 3#2 then .sAdv else .sBreak }

/-- A command on the opened phase is that command on the phase as it was (R117, R118). -/
theorem Regs.writePair_openPhase {w dtw : Nat} (r : Regs w dtw) (n : BitVec dtw) (c : Pair) :
    (r.openPhase n).writePair c = (r.writePair c).setDead n := by
  simp [Regs.openPhase, Regs.writePair, Regs.setDead, putPair_putPair]

/-- S_BREAK opens the phase and loads the dead time (R110). -/
theorem exec_sBreak (s : State) : exec .sBreak s = .next (s.withRegs ((s.regs.openPhase s.cfg.dt).goto .sDead)) := rfl

/-- S_DEAD with dead time left counts down (R111). -/
theorem exec_sDead_of_more {s : State} (h : 1 < s.regs.dtc.toNat) :
    exec .sDead s = .next (s.withRegs ((s.regs.setDead (s.regs.dtc - 1#s.cfg.dtw)).goto .sDead)) :=
  if_pos ((moreDead_iff _).2 h)

/-- S_DEAD in its last step goes to S_MAKE (R111). -/
theorem exec_sDead_of_last {s : State} (h : s.regs.dtc.toNat ≤ 1) :
    exec .sDead s = .next (s.withRegs ((s.regs.setDead 0#s.cfg.dtw).goto .sMake)) :=
  if_neg (by rw [moreDead_iff]; omega)

/-- S_MAKE writes the commanded pair and moves on (R112). -/
theorem exec_sMake_of_command {s : State} {o : OutputState} (h : pairOf s.regs.row s.regs.ph = o.pair) :
    exec .sMake s = .next (s.withRegs (s.regs.writePair o.pair).nextPhase) := by
  change execSMake s = _
  unfold execSMake Regs.nextPhase
  rw [h, ofPair_pair]
  dsimp only
  split
  next hp => simp [Regs.goto, Regs.writePair, hp]
  next hp => simp [Regs.goto, Regs.setPhase, Regs.writePair, hp]

/-- S_MAKE declines the reserved field (R119; log 6). -/
theorem exec_sMake_of_reserved {s : State} (h : pairOf s.regs.row s.regs.ph = 3#2) :
    exec .sMake s = .refused .reservedCommand := by
  change execSMake s = _
  unfold execSMake
  rw [h]
  rfl

/-- Settles O7: S_BREAK writes the pair `0b00`. -/
theorem sBreakOpensThePhase : Obligations.SBreakOpensThePhase :=
  fun s => ⟨_, exec_sBreak s, onlyPairWritten_putPair _ _ _⟩

/-- Settles O8, by the two cases of the count; above 1 the subtraction does not wrap. -/
theorem sDeadCountsDown : Obligations.SDeadCountsDown :=
  fun _ => ⟨fun h => ⟨_, toNat_sub_one h, exec_sDead_of_more h⟩, exec_sDead_of_last⟩

/-- Settles O9: a field that is not `0b11` is the pair of an Output State, and its bits are the two switches. -/
theorem sMakeAppliesTheField : Obligations.SMakeAppliesTheField := by
  intro s hfield
  rw [both_closed_iff] at hfield
  obtain ⟨hbad, -⟩ | ⟨-, o, -, ho⟩ := ofPair_cases (pairOf s.regs.row s.regs.ph)
  · exact absurd hbad hfield
  · obtain ⟨hhigh, hlow⟩ := (pairOf_eq_iff _ _ _).1 ho.symm
    rw [hhigh, hlow]
    exact ⟨_, exec_sMake_of_command ho.symm, onlyPairWritten_putPair _ _ _⟩

/-- Settles O10: both switches closed is the reserved field. -/
theorem sMakeRefusesTheReservedField : Obligations.SMakeRefusesTheReservedField :=
  fun _ hhigh hlow => exec_sMake_of_reserved ((both_closed_iff _ _).1 ⟨hhigh, hlow⟩)

/-- Settles O11: the command and S_MAKE write the same pair, and S_MAKE then moves on. -/
theorem sMakeRunsTheDecodedCommand : Obligations.SMakeRunsTheDecodedCommand := by
  intro s t i hd he
  obtain ⟨o, hfield, rfl⟩ := exists_outputState_of_decode hd
  rw [exec_command] at he
  cases he
  exact exec_sMake_of_command hfield

/-- Settles O45: the phase is open before (the invariant), and an Output State closes at most one switch. -/
theorem sMakeClosesAtMostOneSwitch : Obligations.SMakeClosesAtMostOneSwitch := by
  intro s t hinv hc he
  have hopen : pairOf s.regs.out s.regs.ph = 0b00#2 := hinv.regs.phaseOpen (.inr hc)
  obtain ⟨hbad, -⟩ | ⟨-, o, -, ho⟩ := ofPair_cases (pairOf s.regs.row s.regs.ph)
  · exact absurd hbad ((rowFieldsLegal_iff _).1 hinv.regs.rowCommands _)
  · rw [exec_sMake_of_command ho.symm] at he
    cases he
    refine ⟨closed_putPair_of_open hopen o.pair, fun q hq => pairOf_putPair_other _ q hq _ _, hopen, ?_⟩
    rw [both_closed_iff]
    exact fun hboth => pair_ne_reserved o ((pairOf_putPair_self _ _ _).symm.trans hboth)

/-! ### Runs with their ticks counted -/

/-- No step has counted no tick. -/
theorem runs_zero_counting (s : State) : runs 0 s = .next (s.after 0 (s.regs.countTicks (s.ticksIn 0))) := by
  rw [State.ticksIn, Regs.countTicks_zero]
  rfl

/-- A step without reset at the end of a run, where the micro-operation does not look at the ticks counted so far. -/
theorem runs_snoc_counting {s : State} {n : Nat} {q q' : Regs s.cfg.w s.cfg.dtw} (ha : s.cfg.admitted = true)
    (h : runs n s = .next (s.after n (q.countTicks (s.ticksIn n)))) (hr : (s.portsIn n).rst = false)
    (he : exec (Ctl.instr q.ctl) (s.after n (q.countTicks (s.ticksIn n))) =
      .next (s.after n (q'.countTicks (s.ticksIn n)))) :
    runs (n + 1) s = .next (s.after (n + 1) (q'.countTicks (s.ticksIn (n + 1)))) := by
  rw [runs_snoc_exec ha h hr he, Regs.afterTick_countTicks]
  rfl

/-! ### The phase update (R116) -/

section
variable {s : State}

/-- After S_BREAK and `i` steps of S_DEAD the phase is open and `DT - i` steps of dead time are left (R110, R111). -/
theorem runs_sDead (ha : s.cfg.admitted = true) (hc : s.regs.ctl = .sBreak) {i : Nat} (hi : i < s.cfg.dt.toNat)
    (hr : s.noReset (i + 1)) :
    runs (i + 1) s = .next (s.after (i + 1)
      (((s.regs.openPhase (BitVec.ofNat s.cfg.dtw (s.cfg.dt.toNat - i))).goto .sDead).countTicks (s.ticksIn (i + 1)))) := by
  induction i with
  | zero =>
    have hdt : BitVec.ofNat s.cfg.dtw (s.cfg.dt.toNat - 0) = s.cfg.dt := by simp
    rw [hdt]
    refine runs_snoc_counting ha (runs_zero_counting s) (hr 0 (by omega)) ?_
    rw [hc]
    exact exec_sBreak _
  | succ i ih =>
    have hrun := ih (by omega) (noReset_mono hr (by omega))
    have hlt : s.cfg.dt.toNat - i < 2 ^ s.cfg.dtw := by
      have hdt := s.cfg.dt.isLt
      omega
    have hnext : BitVec.ofNat s.cfg.dtw (s.cfg.dt.toNat - (i + 1)) =
        BitVec.ofNat s.cfg.dtw (s.cfg.dt.toNat - i) - 1#s.cfg.dtw := by
      rw [BitVec.ofNat_sub_ofNat_of_le _ _ (by omega) (by omega), Nat.sub_sub]
    rw [hnext]
    refine runs_snoc_counting ha hrun (hr (i + 1) (by omega)) (exec_sDead_of_more ?_)
    change 1 < (BitVec.ofNat _ _).toNat
    rw [BitVec.toNat_ofNat, Nat.mod_eq_of_lt hlt]
    omega

/-- After the dead time S_MAKE is next, with the phase still open (R111). -/
theorem runs_to_sMake (ha : s.cfg.admitted = true) (hc : s.regs.ctl = .sBreak) (hr : s.noReset (s.cfg.dt.toNat + 1)) :
    runs (s.cfg.dt.toNat + 1) s = .next (s.after (s.cfg.dt.toNat + 1)
      (((s.regs.openPhase 0#s.cfg.dtw).goto .sMake).countTicks (s.ticksIn (s.cfg.dt.toNat + 1)))) := by
  obtain ⟨hdt, -⟩ := admitted_parts ha
  obtain ⟨n, hn⟩ := Nat.exists_eq_add_of_le' hdt
  rw [hn] at hr ⊢
  have hrun := runs_sDead ha hc (i := n) (by omega) (noReset_mono hr (by omega))
  refine runs_snoc_counting ha hrun (hr (n + 1) (by omega)) (exec_sDead_of_last ?_)
  change (BitVec.ofNat _ _).toNat ≤ 1
  rw [BitVec.toNat_ofNat, hn, Nat.add_sub_cancel_left]
  exact Nat.mod_le _ _

/-- A whole phase update: the commanded pair stands on the phase, no dead time is left, `PH` and `CTL` have moved on, and
the ticks of its `DT + 2` steps are counted; no other register has changed (R116). -/
theorem runs_phaseUpdate {new : OutputState} (ha : s.cfg.admitted = true) (hc : s.regs.ctl = .sBreak)
    (hnew : pairOf s.regs.row s.regs.ph = new.pair) (hr : s.noReset (s.cfg.dt.toNat + 2)) :
    runs (s.cfg.dt.toNat + 2) s = .next (s.after (s.cfg.dt.toNat + 2)
      (((s.regs.writePair new.pair).setDead 0#s.cfg.dtw).nextPhase.countTicks (s.ticksIn (s.cfg.dt.toNat + 2)))) := by
  have hrun := runs_to_sMake ha hc (noReset_mono hr (by omega))
  have hwhole : (((s.regs.openPhase 0#s.cfg.dtw).goto .sMake).writePair new.pair).nextPhase =
      ((s.regs.writePair new.pair).setDead 0#s.cfg.dtw).nextPhase := by
    rw [← Regs.writePair_openPhase]
    rfl
  rw [← hwhole]
  refine runs_snoc_counting ha hrun (hr (s.cfg.dt.toNat + 1) (by omega)) ?_
  exact exec_sMake_of_command (s := s.after (s.cfg.dt.toNat + 1) _) hnew

end

/-- Settles O46: the old pair before S_BREAK, the open phase in the dead time and before S_MAKE, the command after. -/
theorem phaseUpdateBreaksBeforeItMakes : Obligations.PhaseUpdateBreaksBeforeItMakes := by
  intro s new ha hc hnew hr j hj
  have hopen := pairOf_putPair_self s.regs.out s.regs.ph 0b00#2
  have hother := fun q (hq : q ≠ s.regs.ph) c => pairOf_putPair_other s.regs.ph q hq s.regs.out c
  obtain rfl | ⟨hpos, hdead⟩ | rfl | rfl :
      j = 0 ∨ (0 < j ∧ j ≤ s.cfg.dt.toNat) ∨ j = s.cfg.dt.toNat + 1 ∨ j = s.cfg.dt.toNat + 2 := by omega
  · exact ⟨s.regs, rfl, rfl, fun _ _ => rfl, hc⟩
  · obtain ⟨i, rfl⟩ := Nat.exists_eq_add_of_le' hpos
    refine ⟨_, runs_sDead ha hc (by omega) (noReset_mono hr (by omega)), ?_, fun q hq => hother q hq _, ?_⟩
    · rw [if_neg (by omega), if_pos (by omega)]
      exact hopen
    · rw [if_neg (by omega), if_pos hdead]
      rfl
  · refine ⟨_, runs_to_sMake ha hc (noReset_mono hr (by omega)), ?_, fun q hq => hother q hq _, ?_⟩
    · rw [if_neg (by omega), if_pos le_rfl]
      exact hopen
    · rw [if_neg (by omega), if_neg (by omega), if_pos rfl]
      rfl
  · refine ⟨_, runs_phaseUpdate ha hc hnew hr, ?_, fun q hq => hother q hq _, ?_⟩
    · rw [if_neg (by omega), if_neg (by omega)]
      exact pairOf_putPair_self _ _ _
    · rw [if_neg (by omega), if_neg (by omega), if_neg (by omega)]
      rfl

end Sys2Proof.Machine

/-! ## The step sequencer (42_step_sequencer.md R130 to R142)

An iteration is S_FETCH, four phase updates, S_ADV and a wait. Each phase update writes one field of the row, so four of
them leave the lines showing the row whatever stood there (`Regs.applyField_four`), and S_ADV moves the position by a
stride modulo the table length (`nextPos_toNat`). -/

namespace Sys2Proof.Machine

/-! ### The position in its table (R22, R74, R132) -/

/-- The table lengths of the two step modes (R74). -/
theorem stepMode_iff (m : BitVec 2) (L : Nat) :
    ((m = 0b01#2 ∧ L = 4) ∨ (m = 0b10#2 ∧ L = 8)) ↔ (legalMode m = true ∧ L = (tableLen m).toNat) := by
  rw [legalMode_iff, or_and_right]
  exact or_congr (and_congr_right (by rintro rfl; rfl)) (and_congr_right (by rintro rfl; rfl))

/-- The table length as the step mode chooses it (R74). -/
theorem tableLen_toNat {m : BitVec 2} (hm : legalMode m = true) : (tableLen m).toNat = if m = 0b01#2 then 4 else 8 := by
  rcases (legalMode_iff m).1 hm with rfl | rfl <;> rfl

/-- How far an advance goes, counted forward in a table of length `L` (R132). -/
def stride (dir : Bool) (L : Nat) : Nat := if dir then L - 1 else 1

/-- An advance moves the position by its stride, modulo the table length (R132, R140). -/
theorem nextPos_toNat {m : BitVec 2} (hm : legalMode m = true) (dir : Bool) {pos : Pos}
    (hp : pos.toNat < (tableLen m).toNat) :
    (nextPos dir m pos).toNat = (pos.toNat + stride dir (tableLen m).toNat) % (tableLen m).toNat := by
  rcases (legalMode_iff m).1 hm with rfl | rfl <;> revert dir pos <;> decide

/-- The advance forward, by the pseudocode of R132. -/
theorem nextPos_forward {m : BitVec 2} (hm : legalMode m = true) (pos : Pos) :
    nextPos false m pos = if pos.toNat + 1 = (tableLen m).toNat then 0#3 else pos + 1#3 := by
  rcases (legalMode_iff m).1 hm with rfl | rfl <;> revert pos <;> decide

/-- The advance in reverse, by the pseudocode of R132. -/
theorem nextPos_reverse {m : BitVec 2} (hm : legalMode m = true) (pos : Pos) :
    nextPos true m pos = if pos = 0#3 then BitVec.ofNat 3 ((tableLen m).toNat - 1) else pos - 1#3 := by
  rcases (legalMode_iff m).1 hm with rfl | rfl <;> revert pos <;> decide

/-- The opposite advance takes an advance back (R132). -/
theorem nextPos_opposite {m : BitVec 2} (hm : legalMode m = true) (dir : Bool) {pos : Pos}
    (hp : pos.toNat < (tableLen m).toNat) : nextPos (!dir) m (nextPos dir m pos) = pos := by
  rcases (legalMode_iff m).1 hm with rfl | rfl <;> revert dir pos <;> decide

/-- The remainder of an advance with the direction tested first, in the form of R132. -/
theorem add_stride_mod (dir : Bool) {L : Nat} (hL : 0 < L) (p : Nat) :
    (p + stride dir L) % L = if dir then (p + L - 1) % L else (p + 1) % L := by
  cases dir with
  | false => rfl
  | true => exact congrArg (· % L) (Nat.add_sub_assoc hL p).symm

/-! ### The four micro-operations -/

/-- S_INIT with a step mode and a duration latches the mode (R130). -/
theorem exec_sInit_of_legal {s : State} (hm : legalMode s.ports.mode = true) (hd : s.ports.speed ≠ 0#s.cfg.w) :
    exec .sInit s = .next (s.withRegs ((s.regs.latchMode s.ports.mode).goto .sFetch)) :=
  (if_pos hm).trans (if_neg hd)

/-- S_INIT with a step mode and no duration raises BADSPEED (R130, R152). -/
theorem exec_sInit_of_no_speed {s : State} (hm : legalMode s.ports.mode = true) (hd : s.ports.speed = 0#s.cfg.w) :
    exec .sInit s = .next (s.withRegs (s.regs.haltEntry .badSpeed)) :=
  (if_pos hm).trans (if_pos hd)

/-- S_INIT without a step mode raises BADMODE, whatever the duration (R130, R151, R154). -/
theorem exec_sInit_of_illegal {s : State} (hm : ¬ legalMode s.ports.mode = true) :
    exec .sInit s = .next (s.withRegs (s.regs.haltEntry .badMode)) :=
  if_neg hm

/-- The registers after a row is fetched: `PH` at the first phase, S_BREAK next (R131). -/
def Regs.fetchRow {w dtw : Nat} (r : Regs w dtw) (v : Byte) : Regs w dtw := ((r.loadRow v).setPhase 0#2).goto .sBreak

/-- S_FETCH fetches the row at `POS` (R131). -/
theorem exec_sFetch (s : State) :
    exec .sFetch s = .next (s.withRegs (s.regs.fetchRow (s.cfg.rom.read (romAddr s.regs.modeL s.regs.pos)))) := rfl

/-- The registers after an advance in a direction: S_WENT next (R132). -/
def Regs.advancePos {w dtw : Nat} (r : Regs w dtw) (dir : Bool) : Regs w dtw :=
  (r.setPos (nextPos dir r.modeL r.pos)).goto .sWent

/-- S_ADV advances in the direction of port `dir` (R132). -/
theorem exec_sAdv (s : State) : exec .sAdv s = .next (s.withRegs (s.regs.advancePos s.ports.dir)) := rfl

/-- S_HALT writes `CTL` (R133). -/
theorem exec_sHalt (s : State) : exec .sHalt s = .next (s.withRegs (s.regs.goto .sHalt)) := rfl

/-! ### The transition table (R136) -/

/-- Settles O28, row by row: each effect of a micro-operation writes `CTL`, and the conditions of the effect are those of
the table's row. -/
theorem controlFollowsTheTransitionTable : Obligations.ControlFollowsTheTransitionTable := by
  intro s r hs
  refine ⟨fun hr => by rw [regs_of_step_rst hr hs]; rfl, fun hr => ?_⟩
  obtain ⟨q, he, rfl⟩ := regs_of_step_no_rst hr hs
  rw [Regs.afterTick_ctl]
  unfold MicroEffect at he
  cases hc : s.regs.ctl <;> rw [hc] at he <;> dsimp only at he ⊢
  case sInit =>
    obtain ⟨hm, hd, rfl⟩ | ⟨hm, hd, rfl⟩ | ⟨hm, rfl⟩ := he
    · rw [if_pos ⟨(legalMode_iff _).1 hm, hd⟩, Regs.goto_ctl]
    · rw [if_neg (fun h => h.2 hd), Regs.haltEntry_ctl]
    · rw [if_neg (by simp [← legalMode_iff, hm]), Regs.haltEntry_ctl]
  case sDead =>
    obtain ⟨hd, rfl⟩ | ⟨hd, rfl⟩ := he
    · rw [if_pos hd, Regs.goto_ctl]
    · rw [if_neg (by omega), Regs.goto_ctl]
  case sMake =>
    obtain ⟨-, ⟨hp, rfl⟩ | ⟨hp, rfl⟩⟩ := he
    · rw [if_pos hp, Regs.goto_ctl]
    · rw [if_neg hp, Regs.goto_ctl]
  case sWent =>
    obtain ⟨hd, rfl⟩ | ⟨hd, rfl⟩ := he
    · rw [if_neg hd, Regs.goto_ctl]
    · rw [if_pos hd, Regs.haltEntry_ctl]
  case sSpin =>
    obtain ⟨hstop, rfl⟩ | ⟨hstop, ht, rfl⟩ | ⟨hstop, ht, rfl⟩ := he
    · rw [if_pos hstop, Regs.haltEntry_ctl]
    · rw [if_neg (by simp [hstop]), if_pos ((expired_iff ..).1 ht), Regs.goto_ctl]
    · rw [if_neg (by simp [hstop]), if_neg (by rw [← expired_iff, ht]; simp), Regs.goto_ctl]
  all_goals rw [he, Regs.goto_ctl]

/-- Settles O33: of the rows of the transition table inside the loop, only those of S_WENT and S_SPIN name S_HALT. -/
theorem theLoopHasNoErrors : Obligations.TheLoopHasNoErrors := by
  intro s r hs hr hinit hhalt hspeed hstop
  have hnext := (controlFollowsTheTransitionTable s r hs).2 hr
  cases hc : s.regs.ctl <;> rw [hc] at hnext <;> dsimp only at hnext <;> rw [hnext]
  case sInit => exact absurd hc hinit
  case sHalt => exact absurd hc hhalt
  case sDead | sMake => split <;> simp
  case sWent => rw [if_neg (fun hd => hspeed ⟨hc, hd⟩)]; simp
  case sSpin =>
    rw [if_neg (fun hnow => hstop ⟨hc, hnow⟩)]
    split <;> simp
  all_goals simp

/-- No row of the transition table names S_INIT (R130). -/
theorem ctl_ne_sInit_of_step {s : State} {r : Regs s.cfg.w s.cfg.dtw} (hr : s.ports.rst = false)
    (hs : step s = .next (s.after 1 r)) : r.ctl ≠ .sInit := by
  have hnext := (controlFollowsTheTransitionTable s r hs).2 hr
  cases hc : s.regs.ctl <;> rw [hc] at hnext <;> dsimp only at hnext <;> rw [hnext]
  case sInit | sDead | sMake | sWent => split <;> simp
  case sSpin =>
    split
    · simp
    · split <;> simp
  all_goals simp

/-! ### The micro-operations' statements -/

/-- Settles O5: the three outcomes of the check, and the transition table for the last clause. -/
theorem sInitChecksThenLatches : Obligations.SInitChecksThenLatches := by
  intro s
  rw [← legalMode_iff]
  refine ⟨exec_sInit_of_legal, fun hfull hhalf => exec_sInit_of_illegal ?_, exec_sInit_of_no_speed,
    fun _ => ctl_ne_sInit_of_step⟩
  rw [legalMode_iff]
  exact fun h => h.elim hfull hhalf

/-- Settles O6: the row address is in the table of the latched mode. -/
theorem sFetchReadsTheRow : Obligations.SFetchReadsTheRow := by
  refine fun s => ⟨_, exec_sFetch s, rfl, fun hm => ?_, fun hm hp => ?_⟩
  · rw [hm]
    exact read_romAddr_half _ _
  · rw [hm]
    exact read_romAddr_full _ hp

/-- Settles O12, by the facts about `nextPos`. -/
theorem sAdvAdvancesWithWrap : Obligations.SAdvAdvancesWithWrap := by
  intro s L hmode
  obtain ⟨hm, rfl⟩ := (stepMode_iff _ _).1 hmode
  refine ⟨nextPos s.ports.dir s.regs.modeL s.regs.pos, exec_sAdv s, fun hdir => ?_, fun hdir => ?_,
    fun hp => ⟨fun hdir => ?_, fun hdir => ?_, ?_⟩⟩
  · rw [hdir, nextPos_forward hm]
  · rw [hdir, nextPos_reverse hm]
  · rw [hdir, nextPos_toNat hm _ hp]
    rfl
  · rw [hdir, nextPos_toNat hm _ hp, add_stride_mod _ (zero_lt_tableLen hm), if_pos rfl]
  · exact nextPos_opposite hm _ hp

/-- Settles O13: S_ADV runs in every state; the position it writes is open with the length (log 5). -/
theorem sAdvRunsWithoutAStepMode : Obligations.SAdvRunsWithoutAStepMode :=
  fun s _ => ⟨_, exec_sAdv s⟩

/-- Settles O16: the write of `CTL`. -/
theorem sHaltWritesNothingElse : Obligations.SHaltWritesNothingElse :=
  exec_sHalt

/-! ### The row on the lines (R135) -/

/-- The four fields of a row, written one after the other, are the row (R72, R73). -/
theorem putPair_four (out v : Byte) :
    putPair (putPair (putPair (putPair out 0#2 (pairOf v 0#2)) 1#2 (pairOf v 1#2)) 2#2 (pairOf v 2#2)) 3#2 (pairOf v 3#2) =
      v := by
  have upto {o : Byte} {p p' : BitVec 2} (h : ∀ q : BitVec 2, q.toNat < p.toNat → pairOf o q = pairOf v q)
      (hp : p'.toNat = p.toNat + 1) (q : BitVec 2) (hq : q.toNat < p'.toNat) :
      pairOf (putPair o p (pairOf v p)) q = pairOf v q := pairOf_putPair_upto h q (by omega)
  have h1 := upto (p := 0#2) (p' := 1#2) (o := out) (by simp) rfl
  have h2 := upto (p' := 2#2) h1 rfl
  have h3 := upto (p' := 3#2) h2 rfl
  exact eq_of_pairOf_eq fun q => pairOf_putPair_upto h3 q (by bv_omega)

section
variable {w dtw : Nat} (r : Regs w dtw)

/-- The registers after a phase update with the row's own field (R112, R116). -/
def Regs.applyField : Regs w dtw := ((r.writePair (pairOf r.row r.ph)).setDead 0#dtw).nextPhase

/-- The registers with the row `v` applied on all four phases: S_ADV next (R134, R135). -/
def Regs.applyRow (v : Byte) : Regs w dtw := { r with ctl := .sAdv, row := v, ph := 3#2, dtc := 0#dtw, out := v }

/-- Four phase updates apply the row that was fetched, whatever the lines were (R135). -/
theorem Regs.applyField_four (v : Byte) : (r.fetchRow v).applyField.applyField.applyField.applyField = r.applyRow v :=
  congrArg (fun lines => { r.applyRow v with out := lines }) (putPair_four r.out v)

/-- Ticks counted add up. -/
@[simp] theorem Regs.countTicks_countTicks (m n : Nat) : (r.countTicks m).countTicks n = r.countTicks (m + n) := by
  simp [Regs.countTicks, BitVec.ofNat_add, BitVec.add_assoc]

end

/-! ### The steps from S_FETCH to the wait (R134, R137) -/

section
variable {s : State} {q : Regs s.cfg.w s.cfg.dtw} {n : Nat}

/-- A phase update at the end of a run, with a field that is a command (R116). -/
theorem runs_applyField (ha : s.cfg.admitted = true) (h : runs n s = .next (s.after n (q.countTicks (s.ticksIn n))))
    (hc : q.ctl = .sBreak) (hfield : pairOf q.row q.ph ≠ 3#2) (hr : s.noReset (n + (s.cfg.dt.toNat + 2))) :
    runs (n + (s.cfg.dt.toNat + 2)) s = .next (s.after (n + (s.cfg.dt.toNat + 2))
      (q.applyField.countTicks (s.ticksIn (n + (s.cfg.dt.toNat + 2))))) := by
  obtain ⟨hbad, -⟩ | ⟨-, o, -, ho⟩ := ofPair_cases (pairOf q.row q.ph)
  · exact absurd hbad hfield
  · have hphase := runs_phaseUpdate (s := s.after n (q.countTicks (s.ticksIn n))) ha hc ho.symm (noReset_after _ hr)
    rw [ticksIn_add s n _ (q.countTicks (s.ticksIn n)), ← Regs.countTicks_countTicks, Regs.applyField, ← ho]
    exact runs_trans h hphase

/-- S_FETCH and the four phase updates: the row stands on the lines, and nothing but the ticks tells what the lines
were (R134, R135). -/
theorem runs_applyRow {v : Byte} (ha : s.cfg.admitted = true) (hc : s.regs.ctl = .sFetch)
    (hv : v = s.cfg.rom.read (romAddr s.regs.modeL s.regs.pos)) (hlegal : rowFieldsLegal v = true)
    (hr : s.noReset (4 * s.cfg.dt.toNat + 9)) :
    runs (4 * s.cfg.dt.toNat + 9) s = .next (s.after (4 * s.cfg.dt.toNat + 9)
      ((s.regs.applyRow v).countTicks (s.ticksIn (4 * s.cfg.dt.toNat + 9)))) := by
  have hfield := (rowFieldsLegal_iff v).1 hlegal
  have hfetch : runs 1 s = .next (s.after 1 ((s.regs.fetchRow v).countTicks (s.ticksIn 1))) := by
    refine runs_snoc_counting ha (runs_zero_counting s) (hr 0 (by omega)) ?_
    rw [hc, hv]
    exact exec_sFetch _
  have h1A := runs_applyField ha hfetch rfl (hfield 0#2) (noReset_mono hr (by omega))
  have h1B := runs_applyField ha h1A rfl (hfield 1#2) (noReset_mono hr (by omega))
  have h2A := runs_applyField ha h1B rfl (hfield 2#2) (noReset_mono hr (by omega))
  have h2B := runs_applyField ha h2A rfl (hfield 3#2) (noReset_mono hr (by omega))
  have hlen : 1 + (s.cfg.dt.toNat + 2) + (s.cfg.dt.toNat + 2) + (s.cfg.dt.toNat + 2) + (s.cfg.dt.toNat + 2) =
      4 * s.cfg.dt.toNat + 9 := by omega
  rwa [hlen, Regs.applyField_four] at h2B

/-- From S_FETCH to the wait: the row at `POS` is applied and the position advances in the direction sampled at S_ADV, the
last of the `4*DT + 10` steps (R134, R137). -/
theorem runs_to_sWent (ha : s.cfg.admitted = true) (hc : s.regs.ctl = .sFetch) (hm : legalMode s.regs.modeL = true)
    (hp : s.regs.pos.toNat < (tableLen s.regs.modeL).toNat) (hr : s.noReset (4 * s.cfg.dt.toNat + 10)) :
    runs (4 * s.cfg.dt.toNat + 10) s = .next (s.after (4 * s.cfg.dt.toNat + 10)
      (((s.regs.applyRow (s.cfg.rom.read (romAddr s.regs.modeL s.regs.pos))).advancePos
        (s.portsIn (4 * s.cfg.dt.toNat + 9)).dir).countTicks (s.ticksIn (4 * s.cfg.dt.toNat + 10)))) := by
  obtain ⟨-, htables⟩ := admitted_parts ha
  have hrow := runs_applyRow ha hc rfl (read_romAddr_legal htables hm hp) (noReset_mono hr (by omega))
  refine runs_snoc_counting ha hrow (hr _ (by omega)) ?_
  exact (exec_sAdv _).trans (by rw [State.ports_after]; rfl)

end

/-- Settles O51: the registers at the wait's entry are known whole. -/
theorem iterationAppliesTheRow : Obligations.IterationAppliesTheRow := by
  rintro s n L hinv hc rfl hr rfl
  have hm := hinv.regs.modeLatched (by simp [hc]) (by simp [hc])
  have hp := hinv.regs.posInRange hm
  refine ⟨_, runs_to_sWent hinv.admitted hc hm hp hr, rfl, rfl, rfl, ?_, rfl, rfl, rfl, rfl, rfl, rfl, rfl⟩
  rw [← tableLen_toNat hm, ← add_stride_mod _ (zero_lt_tableLen hm)]
  exact nextPos_toNat hm _ hp

/-- Settles O52: the steps to the wait (O51), and then the wait with the ticks counted from its entry (O48). -/
theorem iterationTakesItsTicks : Obligations.IterationTakesItsTicks := by
  intro s e m L hinv hc he hm hr hd hstop hmissing henough hL
  obtain ⟨r, hrun, hwent, hrow, hout, hpos, -⟩ :=
    iterationAppliesTheRow s e L hinv hc he (noReset_mono hr (by omega)) hL
  have hport : (s.after e r).ports = s.portsIn e := State.ports_after s e r
  have hticks (j : Nat) : s.ticksIn (e + j) = s.ticksIn e + (s.after e r).ticksIn j := ticksIn_add s e j r
  have hr' : (s.after e r).noReset (m + 1) := noReset_after r hr
  obtain ⟨hexact, hwait⟩ := waitReturnsAfterItsTicks (s.after e r) m hinv.admitted hwent (by rwa [hport]) hm hr'
    (fun i h1 hi => by rw [State.portsIn_after]; exact hstop i h1 hi)
    (fun j h1 hj => by have hj' := hmissing j h1 hj; rw [hport]; rw [hticks] at hj'; omega)
    (by rw [hport]; rw [hticks] at henough; omega)
  refine ⟨?_, ?_⟩
  · rw [State.ticksIn, hticks, hexact, hport]
    omega
  · rw [Nat.add_assoc]
    exact ⟨_, runs_trans hrun hwait, rfl, hrow, hout, hpos, congrArg Ports.speed hport⟩

/-- Settles O53: S_INIT latches the mode at position 0, and the steps from S_FETCH to the wait follow. -/
theorem firstRowAfterReset : Obligations.FirstRowAfterReset := by
  rintro s n ha hreset rfl hr hmode hd
  have hm := (legalMode_iff _).2 hmode
  have hinit : runs 1 s = .next (s.after 1 (((s.regs.latchMode s.ports.mode).goto .sFetch).countTicks (s.ticksIn 1))) := by
    refine runs_snoc_counting ha (runs_zero_counting s) (hr 0 (by omega)) ?_
    rw [hreset]
    exact exec_sInit_of_legal hm hd
  have hpos : s.regs.pos = 0#3 := by rw [hreset]; rfl
  have hp : s.regs.pos.toNat < (tableLen s.ports.mode).toNat := by rw [hpos]; exact zero_lt_tableLen hm
  rw [show 4 * s.cfg.dt.toNat + 11 = 1 + (4 * s.cfg.dt.toNat + 10) by omega] at hr ⊢
  refine ⟨_, runs_trans hinit (runs_to_sWent ha rfl hm hp (noReset_after _ hr)), rfl, rfl, ?_, rfl⟩
  rw [← hpos]
  rfl

/-! ### The position over a run (R138, R140) -/

/-- The advances of a run are that of its first step, if it is S_ADV, and those of the rest. -/
theorem advances_succ {s t : State} (h : step s = .next t) (n : Nat) :
    advances (n + 1) s = (if s.regs.ctl = .sAdv then 1 else 0) + advances n t := by
  rw [advances, h]

/-- A step inside the loop keeps the mode, and moves the position by one advance if it is S_ADV (R20, R132). -/
theorem position_of_step {s : State} {r : Regs s.cfg.w s.cfg.dtw} (hinv : Inv s) (hm : legalMode s.regs.modeL = true)
    (hr : s.ports.rst = false) (hs : step s = .next (s.after 1 r)) :
    r.modeL = s.regs.modeL ∧
      r.pos = if s.regs.ctl = .sAdv then nextPos s.ports.dir s.regs.modeL s.regs.pos else s.regs.pos := by
  obtain ⟨hpos, hmode, -⟩ := registersHaveTheirWriters s r hs hr
  have hinit : s.regs.ctl ≠ .sInit := fun hc => legalMode_ne_zero hm (by rw [hinv.regs.initFresh hc]; rfl)
  refine ⟨not_not.1 (mt hmode hinit), ?_⟩
  split
  next hc =>
    obtain ⟨q, he, rfl⟩ := regs_of_step_no_rst hr hs
    rw [MicroEffect, hc] at he
    rw [he]
    exact Regs.afterTick_pos _ _
  next hc => exact not_not.1 (mt hpos hc)

/-- Over a run without reset in one direction the position moves by one stride per S_ADV (R140). -/
theorem position_of_runs {dir : Bool} {t : State} : ∀ {n : Nat} {s : State}, Inv s → legalMode s.regs.modeL = true →
    s.noReset n → (∀ i, i < n → (s.portsIn i).dir = dir) → runs n s = .next t →
    t.regs.pos.toNat =
      (s.regs.pos.toNat + stride dir (tableLen s.regs.modeL).toNat * advances n s) % (tableLen s.regs.modeL).toNat
  | 0, s, hinv, hm, _, _, h => by
    cases h
    exact (Nat.mod_eq_of_lt (hinv.regs.posInRange hm)).symm
  | n + 1, s, hinv, hm, hr, hdir, h => by
    obtain ⟨u, hs, hrun⟩ := andThen_eq_next.1 h
    obtain ⟨r, rfl⟩ := step_next_after hs
    obtain ⟨hmode, hpos⟩ := position_of_step hinv hm (hr 0 n.succ_pos) hs
    have hdir' : ∀ i, i < n → ((s.after 1 r).portsIn i).dir = dir := fun i hi => by
      rw [State.portsIn_after]
      exact hdir (1 + i) (by omega)
    have hr' : (s.after 1 r).noReset n := noReset_after r (by rwa [Nat.add_comm])
    have ih := position_of_runs (inv_step hinv hs) (by rwa [← hmode] at hm) hr' hdir' hrun
    rw [State.after_regs s 1 r, hmode, hpos] at ih
    rw [ih, advances_succ hs]
    split
    next =>
      rw [nextPos_toNat hm _ (hinv.regs.posInRange hm), show s.ports.dir = dir from hdir 0 n.succ_pos, Nat.mod_add_mod,
        Nat.mul_add, Nat.mul_one, Nat.add_assoc]
    next => rw [Nat.zero_add]

/-- Settles O54, in both directions by the stride. -/
theorem positionCountsTheAdvances : Obligations.PositionCountsTheAdvances := by
  intro s n L r hinv hmode hr hrun
  obtain ⟨hm, rfl⟩ := (stepMode_iff _ _).1 hmode
  refine ⟨fun hdir => ?_, fun hdir => ?_⟩
  · have hpos := position_of_runs hinv hm hr hdir hrun
    rwa [stride, if_neg (by simp), Nat.one_mul] at hpos
  · exact position_of_runs hinv hm hr hdir hrun

end Sys2Proof.Machine

/-! ## Exceptions (60_exceptions.md R150 to R157)

The only exception is the halt entry, and three micro-operations make it (`MicroEffect.eq_haltEntry`). It is final, since
S_HALT keeps every register (`runs_halted`), and a held stop brings it about: the steps left until a stop is taken
(`Regs.stepsToStop`) become fewer with every step (`MicroEffect.stepsToStop_lt`). -/

namespace Sys2Proof.Machine

/-! ### The halt entry (R150, R155) -/

/-- The micro-operation of `CTL` raises the cause under this step's ports (R150 to R154). -/
def Raises (s : State) : Cause → Prop
  | .none => False
  | .badMode => s.regs.ctl = .sInit ∧ legalMode s.ports.mode = false
  | .badSpeed => (s.regs.ctl = .sInit ∧ legalMode s.ports.mode = true ∨ s.regs.ctl = .sWent) ∧ s.ports.speed = 0#s.cfg.w
  | .stop => s.regs.ctl = .sSpin ∧ s.ports.stop = true

/-- A micro-operation that goes to S_HALT from elsewhere makes the halt entry, with the cause it raises (R155). -/
theorem MicroEffect.eq_haltEntry {s : State} {q : Regs s.cfg.w s.cfg.dtw} (he : MicroEffect s q)
    (hfrom : s.regs.ctl ≠ .sHalt) (hto : q.ctl = .sHalt) : ∃ c, q = s.regs.haltEntry c ∧ Raises s c := by
  unfold MicroEffect at he
  cases hc : s.regs.ctl <;> rw [hc] at he <;> dsimp only at he
  case sInit =>
    obtain ⟨-, -, rfl⟩ | ⟨hm, hd, rfl⟩ | ⟨hm, rfl⟩ := he
    · cases hto
    · exact ⟨.badSpeed, rfl, .inl ⟨hc, hm⟩, hd⟩
    · exact ⟨.badMode, rfl, hc, hm⟩
  case sDead => obtain ⟨-, rfl⟩ | ⟨-, rfl⟩ := he <;> cases hto
  case sMake => obtain ⟨-, ⟨-, rfl⟩ | ⟨-, rfl⟩⟩ := he <;> cases hto
  case sWent =>
    obtain ⟨-, rfl⟩ | ⟨hd, rfl⟩ := he
    · cases hto
    · exact ⟨.badSpeed, rfl, .inr hc, hd⟩
  case sSpin =>
    obtain ⟨hstop, rfl⟩ | ⟨-, -, rfl⟩ | ⟨-, -, rfl⟩ := he
    · exact ⟨.stop, rfl, hc, hstop⟩
    · cases hto
    · cases hto
  case sHalt => exact absurd hc hfrom
  all_goals
    subst he
    cases hto

/-- Settles O32: the step is a halt entry and then the tick, and each cause has its conditions and its code (R76). -/
theorem haltEntryIsPrecise : Obligations.HaltEntryIsPrecise := by
  intro s r hs hr hfrom hto
  obtain ⟨q, he, rfl⟩ := regs_of_step_no_rst hr hs
  rw [Regs.afterTick_ctl] at hto
  obtain ⟨c, rfl, hraise⟩ := he.eq_haltEntry hfrom hto
  constructor
  · rw [Regs.afterTick_eq]
    rfl
  · rw [Regs.afterTick_cause, Regs.haltEntry_cause, ← legalMode_iff]
    cases c with
    | none => exact hraise.elim
    | badMode =>
      obtain ⟨hc, hm⟩ := hraise
      have hnot : ¬ (s.ports.mode = 0b01#2 ∨ s.ports.mode = 0b10#2) := by rw [← legalMode_iff, hm]; simp
      exact .inl ⟨hc, fun hfull => hnot (.inl hfull), fun hhalf => hnot (.inr hhalf), rfl⟩
    | badSpeed =>
      obtain ⟨⟨hc, hm⟩ | hc, hd⟩ := hraise
      · exact .inr (.inl ⟨hc, hm, hd, rfl⟩)
      · exact .inr (.inr (.inl ⟨hc, hd, rfl⟩))
    | stop =>
      obtain ⟨hc, hstop⟩ := hraise
      exact .inr (.inr (.inr ⟨hc, hstop, rfl⟩))

/-! ### Halted (R156) -/

/-- In S_HALT the micro-operation changes nothing at all (R133). -/
theorem exec_sHalt_of_halted {s : State} (hc : s.regs.ctl = .sHalt) : exec .sHalt s = .next s := by
  rw [exec_sHalt, Regs.goto_self _ hc]

/-- Halted, without reset, nothing happens but that ticks are counted (R133, R156). -/
theorem runs_halted {s : State} (ha : s.cfg.admitted = true) (hc : s.regs.ctl = .sHalt) {n : Nat} (hr : s.noReset n) :
    runs n s = .next (s.after n (s.regs.countTicks (s.ticksIn n))) := by
  induction n with
  | zero => exact runs_zero_counting s
  | succ n ih =>
    refine runs_snoc_counting ha (ih (noReset_mono hr n.le_succ)) (hr n n.lt_succ_self) ?_
    rw [hc]
    exact exec_sHalt_of_halted hc

/-- A reset step at the end of a run (R170). -/
theorem runs_snoc_rst {s : State} {n : Nat} {q : Regs s.cfg.w s.cfg.dtw} (ha : s.cfg.admitted = true)
    (h : runs n s = .next (s.after n q)) (hr : (s.portsIn n).rst = true) :
    runs (n + 1) s = .next (s.after (n + 1) (Regs.reset s.cfg.w s.cfg.dtw)) :=
  runs_snoc h (step_of_rst ha (by rw [State.ports_after, hr]))

/-- Settles O56: the run of a halted machine is known whole, and a reset step ends it. -/
theorem haltLastsUntilReset : Obligations.HaltLastsUntilReset := by
  intro s n ha hc hr
  have hrun := runs_halted ha hc hr
  exact ⟨hrun, fun hrst => ⟨_, runs_snoc_rst ha hrun hrst, rfl, rfl, rfl, rfl⟩⟩

/-! ### A held stop (R153, R183) -/

/-- The steps after the S_MAKE of a phase until a held stop has been taken: a phase update for each phase after it, then
S_ADV, S_WENT and S_SPIN (R134). -/
def stepsAfterMake (dt : Nat) (ph : BitVec 2) : Nat := (3 - ph.toNat) * (dt + 2) + 3

/-- With the first phase made the most steps are left. -/
theorem stepsAfterMake_le (dt : Nat) (ph : BitVec 2) : stepsAfterMake dt ph ≤ 3 * (dt + 2) + 3 :=
  Nat.add_le_add_right (Nat.mul_le_mul_right _ (Nat.sub_le _ _)) _

/-- The next phase has one phase update less after it (R112, R116). -/
theorem stepsAfterMake_next (dt : Nat) {ph : BitVec 2} (hp : ph ≠ 3#2) :
    stepsAfterMake dt (ph + 1#2) + (dt + 2) = stepsAfterMake dt ph := by
  have hone : 3 - ph.toNat = 3 - (ph + 1#2).toNat + 1 := by bv_omega
  rw [stepsAfterMake, stepsAfterMake, hone, Nat.succ_mul]
  omega

/-- The most steps until a held stop has been taken, with `dt` steps of dead time (R136, R153). -/
def Regs.stepsToStop {w dtw : Nat} (dt : Nat) (r : Regs w dtw) : Nat :=
  match r.ctl with
  | .sInit => 4 * dt + 13
  | .sFetch => 4 * dt + 12
  | .sBreak => stepsAfterMake dt r.ph + (dt + 2)
  | .sDead => stepsAfterMake dt r.ph + (r.dtc.toNat + 1)
  | .sMake => stepsAfterMake dt r.ph + 1
  | .sAdv => 3
  | .sWent => 2
  | .sSpin => 1
  | .sHalt => 0

/-- Past S_INIT there are at most as many as from S_FETCH (R153). -/
theorem Regs.stepsToStop_le {w dtw : Nat} {dt : Nat} {r : Regs w dtw} (hinit : r.ctl ≠ .sInit)
    (hdead : r.ctl = .sDead → r.dtc.toNat ≤ dt) : r.stepsToStop dt ≤ 4 * dt + 12 := by
  have hphases := stepsAfterMake_le dt r.ph
  unfold Regs.stepsToStop
  cases hc : r.ctl <;> dsimp only
  case sInit => exact absurd hc hinit
  case sDead =>
    have hleft := hdead hc
    omega
  all_goals omega

/-- The tick does not matter. -/
@[simp] theorem Regs.stepsToStop_afterTick {w dtw : Nat} (dt : Nat) (r : Regs w dtw) (p : Ports w) :
    (r.afterTick p).stepsToStop dt = r.stepsToStop dt := by
  simp [Regs.stepsToStop]

/-- With no steps left the machine is halted: every other value of `CTL` has a step to go. -/
theorem Regs.ctl_of_stepsToStop_eq_zero {w dtw : Nat} {dt : Nat} {r : Regs w dtw} (h : r.stepsToStop dt = 0) :
    r.ctl = .sHalt := by
  by_contra hn
  unfold Regs.stepsToStop at h
  cases hc : r.ctl <;> rw [hc] at h <;> dsimp only at h
  case sHalt => exact hn hc
  all_goals omega

/-- With a stop held, every micro-operation but S_HALT leaves fewer steps to go (R136): the loop leads to S_SPIN, and
S_SPIN takes the stop before it looks at the time (R154). -/
theorem MicroEffect.stepsToStop_lt {s : State} {q : Regs s.cfg.w s.cfg.dtw} (he : MicroEffect s q) (hinv : Inv s)
    (hstop : s.ports.stop = true) (hc : s.regs.ctl ≠ .sHalt) :
    q.stepsToStop s.cfg.dt.toNat < s.regs.stepsToStop s.cfg.dt.toNat := by
  have hdead := hinv.regs.deadRange
  unfold MicroEffect at he
  cases hat : s.regs.ctl <;> rw [hat] at he <;> dsimp only at he <;>
    rw [Regs.stepsToStop.eq_def _ s.regs, hat] <;> dsimp only
  case sInit => obtain ⟨-, -, rfl⟩ | ⟨-, -, rfl⟩ | ⟨-, rfl⟩ := he <;> simp [Regs.stepsToStop]
  case sFetch =>
    subst he
    have hphases := stepsAfterMake_le s.cfg.dt.toNat 0#2
    simp only [Regs.stepsToStop, Regs.goto_ctl, Regs.goto_ph, Regs.setPhase_ph]
    omega
  case sBreak =>
    subst he
    simp [Regs.stepsToStop]
  case sDead =>
    obtain ⟨hmore, rfl⟩ | ⟨-, rfl⟩ := he
    · have hless := toNat_sub_one hmore
      simp only [Regs.stepsToStop, Regs.goto_ctl, Regs.goto_ph, Regs.setDead_ph, Regs.goto_dtc, Regs.setDead_dtc]
      omega
    · have hpending := (hdead hat).1
      simp only [Regs.stepsToStop, Regs.goto_ctl, Regs.goto_ph, Regs.setDead_ph]
      omega
  case sMake =>
    obtain ⟨-, ⟨-, rfl⟩ | ⟨hp, rfl⟩⟩ := he
    · simp [Regs.stepsToStop, stepsAfterMake]
    · have hnext := stepsAfterMake_next s.cfg.dt.toNat hp
      simp only [Regs.stepsToStop, Regs.goto_ctl, Regs.goto_ph, Regs.setPhase_ph]
      omega
  case sAdv =>
    subst he
    simp [Regs.stepsToStop]
  case sWent => obtain ⟨-, rfl⟩ | ⟨-, rfl⟩ := he <;> simp [Regs.stepsToStop]
  case sSpin =>
    obtain ⟨-, rfl⟩ | ⟨hno, -⟩ | ⟨hno, -⟩ := he
    · simp [Regs.stepsToStop]
    all_goals simp [hstop] at hno
  case sHalt => exact absurd hat hc

/-- A stop held for the steps that are left halts the machine within them. -/
theorem halts_of_held_stop : ∀ {n : Nat} {s : State}, Inv s → s.regs.stepsToStop s.cfg.dt.toNat ≤ n → s.noReset n →
    (∀ i, i < n → (s.portsIn i).stop = true) → ∃ m, m ≤ n ∧ ∃ r, runs m s = .next (s.after m r) ∧ r.ctl = .sHalt
  | 0, s, _, hn, _, _ => ⟨0, le_rfl, s.regs, rfl, Regs.ctl_of_stepsToStop_eq_zero (Nat.le_zero.1 hn)⟩
  | n + 1, s, hinv, hn, hr, hstop => by
    by_cases hc : s.regs.ctl = .sHalt
    · exact ⟨0, Nat.zero_le _, s.regs, rfl, hc⟩
    · obtain ⟨r, hstep⟩ := step_total hinv
      obtain ⟨q, he, rfl⟩ := regs_of_step_no_rst (hr 0 n.succ_pos) hstep
      have hless := he.stepsToStop_lt hinv (hstop 0 n.succ_pos) hc
      have hn' : (q.afterTick s.ports).stepsToStop s.cfg.dt.toNat ≤ n := by
        rw [Regs.stepsToStop_afterTick]
        omega
      have hr' : (s.after 1 (q.afterTick s.ports)).noReset n := noReset_after _ (by rwa [Nat.add_comm])
      have hstop' : ∀ i, i < n → ((s.after 1 (q.afterTick s.ports)).portsIn i).stop = true := fun i hi => by
        rw [State.portsIn_after]
        exact hstop (1 + i) (by omega)
      obtain ⟨m, hm, r, hrun, hhalt⟩ := halts_of_held_stop (inv_step hinv hstep) hn' hr' hstop'
      exact ⟨1 + m, by omega, r, runs_trans ((runs_one s).trans hstep) hrun, hhalt⟩

/-- Settles O55: past S_INIT no more steps are left than the bound, and a halted state that meets the invariant has all
lines open (R38). -/
theorem heldStopOpensTheLines : Obligations.HeldStopOpensTheLines := by
  intro s hinv hinit hr hstop
  have hleft := Regs.stepsToStop_le hinit fun hc => (hinv.regs.deadRange hc).2
  obtain ⟨m, hm, r, hrun, hhalt⟩ := halts_of_held_stop hinv hleft hr hstop
  have hend : Inv (s.after m r) := runs_keep inv_step hinv hrun
  exact ⟨m, hm, r, hrun, hhalt, hend.regs.haltedOpen hhalt⟩

end Sys2Proof.Machine

/-! ## Reset and hazards (70_reset_and_hazards.md R170 to R186)

Reset overrides the rest of a step, and its registers meet the invariant whatever stood before. Of the hazards, the ports
matter only through `MicroEffect`: two input vectors that agree where the micro-operation looks have the same effects
(`MicroEffect.of_agreeAt`), and an effect is unique. -/

namespace Sys2Proof.Machine

/-! ### The reset values (R170, R171) -/

section
variable (w dtw : Nat)

@[simp] theorem Regs.reset_ctl : (Regs.reset w dtw).ctl = .sInit := rfl
@[simp] theorem Regs.reset_pos : (Regs.reset w dtw).pos = 0#3 := rfl
@[simp] theorem Regs.reset_modeL : (Regs.reset w dtw).modeL = 0b00#2 := rfl
@[simp] theorem Regs.reset_row : (Regs.reset w dtw).row = 0x00#8 := rfl
@[simp] theorem Regs.reset_ph : (Regs.reset w dtw).ph = 0#2 := rfl
@[simp] theorem Regs.reset_dtc : (Regs.reset w dtw).dtc = 0#dtw := rfl
@[simp] theorem Regs.reset_out : (Regs.reset w dtw).out = 0x00#8 := rfl
@[simp] theorem Regs.reset_tick : (Regs.reset w dtw).tick = 0#w := rfl
@[simp] theorem Regs.reset_t0 : (Regs.reset w dtw).t0 = 0#w := rfl
@[simp] theorem Regs.reset_speedL : (Regs.reset w dtw).speedL = 0#w := rfl
@[simp] theorem Regs.reset_cause : (Regs.reset w dtw).cause = .none := rfl

end

/-- RESET is the load of the reset registers (R170). -/
theorem exec_reset (s : State) : exec .reset s = .next (s.withRegs (Regs.reset s.cfg.w s.cfg.dtw)) := rfl

/-- What the host sees of the reset registers (R33, R171). -/
theorem outPorts_reset (s : State) : (s.withRegs (Regs.reset s.cfg.w s.cfg.dtw)).outPorts =
    { out := 0x00#8, pos := 0#3, now := 0#s.cfg.w, halted := false, cause := 0b00#2 } := rfl

/-- Settles O21: RESET loads the reset registers, and each of them has its value. -/
theorem resetGivesTheResetValues : Obligations.ResetGivesTheResetValues := by
  intro s
  refine ⟨Regs.reset s.cfg.w s.cfg.dtw, exec_reset s, ?_⟩
  simp [outPorts_reset]

/-- Settles O22: the machine's own reset state is the reset registers at the default parameters, which are admitted since
the state meets the invariant (O39). -/
theorem resetStateHoldsTheResetValues : Obligations.ResetStateHoldsTheResetValues :=
  ⟨rfl, rfl, rfl, rfl, rfl, rfl, rfl, rfl, rfl, rfl, rfl, rfl, rfl, rfl, invariantHoldsAtReset.admitted⟩

/-! ### A step with reset (R170, R172) -/

/-- Settles O26: with reset the step is RESET and the boundary; without it, the transition table keeps S_HALT, and the
register table lets only S_INIT write `MODE_L`. -/
theorem resetOverridesTheStep : Obligations.ResetOverridesTheStep := by
  intro s ha
  refine ⟨fun hr t ht => ?_, fun hr => step_of_rst ha hr, fun hr r hs => ⟨fun hc => ?_, fun hc => ?_⟩⟩
  · rw [exec_reset] at ht
    cases ht
    exact step_of_rst ha hr
  · have hnext := (controlFollowsTheTransitionTable s r hs).2 hr
    rwa [hc] at hnext
  · obtain ⟨-, hmode, -⟩ := registersHaveTheirWriters s r hs hr
    exact not_not.1 fun hne => hc (hmode hne)

/-- Settles O40: the reset registers meet the invariant, and the step answers only in an admitted configuration. -/
theorem resetStepEstablishesTheInvariant : Obligations.ResetStepEstablishesTheInvariant := by
  intro s t hrom hr hs
  obtain ⟨ha, -⟩ := step_next_cases hs
  rw [step_of_rst ha hr] at hs
  cases hs
  exact ⟨ha, hrom, regsInv_reset⟩

/-! ### Where the ports are sampled (R182) -/

/-- The micro-operation of `CTL` has a next state wherever S_MAKE does not meet the reserved field (R119). -/
theorem exec_next_of_field {s : State} (hf : s.regs.ctl = .sMake → pairOf s.regs.row s.regs.ph ≠ 3#2) :
    ∃ q, exec (Ctl.instr s.regs.ctl) s = .next (s.withRegs q) := by
  cases hc : s.regs.ctl with
  | sFetch | sBreak | sAdv | sHalt => exact ⟨_, rfl⟩
  | sInit =>
    by_cases hm : legalMode s.ports.mode = true
    · by_cases hd : s.ports.speed = 0#s.cfg.w
      · exact ⟨_, exec_sInit_of_no_speed hm hd⟩
      · exact ⟨_, exec_sInit_of_legal hm hd⟩
    · exact ⟨_, exec_sInit_of_illegal hm⟩
  | sDead =>
    obtain hd | hd := Nat.lt_or_ge 1 s.regs.dtc.toNat
    · exact ⟨_, exec_sDead_of_more hd⟩
    · exact ⟨_, exec_sDead_of_last hd⟩
  | sMake =>
    obtain ⟨hbad, -⟩ | ⟨-, o, -, ho⟩ := ofPair_cases (pairOf s.regs.row s.regs.ph)
    · exact absurd hbad (hf hc)
    · exact ⟨_, exec_sMake_of_command ho.symm⟩
  | sWent =>
    by_cases hd : s.ports.speed = 0#s.cfg.w
    · exact ⟨_, exec_sWent_of_no_speed hd⟩
    · exact ⟨_, exec_sWent_of_speed hd⟩
  | sSpin =>
    cases hs : s.ports.stop with
    | true => exact ⟨_, exec_sSpin_of_stop hs⟩
    | false => exact ⟨_, exec_sSpin_of_no_stop hs⟩

/-- A step of S_MAKE on the reserved field is refused (R119; log 6). -/
theorem step_of_reserved {s : State} (ha : s.cfg.admitted = true) (hr : s.ports.rst = false) (hc : s.regs.ctl = .sMake)
    (hf : pairOf s.regs.row s.regs.ph = 3#2) : step s = .refused .reservedCommand := by
  have hd : decode .ctl4 s.ctlWord = .ok .sMake := by rw [decode_ctlWord, hc, Ctl.instr]
  exact stepPassesOnARefusal s .sMake .reservedCommand ha hr hd (exec_sMake_of_reserved hf)

/-- Two input vectors agree on the configuration ports that the micro-operation `c` samples (R32, R182). -/
structure Ports.AgreeAt {w : Nat} (c : Ctl) (p p' : Ports w) : Prop where
  /-- Port `mode` is sampled at S_INIT. -/
  mode : c = .sInit → p.mode = p'.mode
  /-- Port `speed` is sampled at S_INIT and S_WENT. -/
  speed : c = .sInit ∨ c = .sWent → p.speed = p'.speed
  /-- Port `dir` is sampled at S_ADV. -/
  dir : c = .sAdv → p.dir = p'.dir
  /-- Port `stop` is sampled at S_SPIN. -/
  stop : c = .sSpin → p.stop = p'.stop

/-- A state whose next inputs are `p`. -/
def stateWithPorts (c : Config) (r : Regs c.w c.dtw) (rest : List (Ports c.w)) (k : Nat) (p : Ports c.w) : State :=
  ⟨c, r, p :: rest, k⟩

section
variable {c : Config} {r : Regs c.w c.dtw} {rest : List (Ports c.w)} {k : Nat} {p p' : Ports c.w}

@[simp] theorem stateWithPorts_regs : (stateWithPorts c r rest k p).regs = r := rfl
@[simp] theorem stateWithPorts_ports : (stateWithPorts c r rest k p).ports = p := rfl

/-- The effects of a micro-operation depend on the ports it samples only. -/
theorem MicroEffect.of_agreeAt {q : Regs c.w c.dtw} (hp : Ports.AgreeAt r.ctl p p')
    (h : MicroEffect (stateWithPorts c r rest k p) q) : MicroEffect (stateWithPorts c r rest k p') q := by
  unfold MicroEffect at h ⊢
  dsimp only [stateWithPorts_regs, stateWithPorts_ports] at h ⊢
  cases hc : r.ctl <;> rw [hc] at h <;> dsimp only at h ⊢
  case sInit => rwa [← hp.mode hc, ← hp.speed (.inl hc)]
  case sAdv => rwa [← hp.dir hc]
  case sWent => rwa [← hp.speed (.inr hc)]
  case sSpin => rwa [← hp.stop hc]
  all_goals exact h

/-- Without reset, agreement on the sampled ports and on the tick gives the same step. -/
theorem step_of_agreeAt (ha : c.admitted = true) (hr : p.rst = false) (hr' : p'.rst = false) (ht : p.tick = p'.tick)
    (hp : Ports.AgreeAt r.ctl p p') : step (stateWithPorts c r rest k p) = step (stateWithPorts c r rest k p') := by
  by_cases hbad : r.ctl = .sMake ∧ pairOf r.row r.ph = 3#2
  · obtain ⟨hc, hf⟩ := hbad
    exact (step_of_reserved (s := stateWithPorts c r rest k p) ha hr hc hf).trans
      (step_of_reserved (s := stateWithPorts c r rest k p') ha hr' hc hf).symm
  · have hf : r.ctl = .sMake → pairOf r.row r.ph ≠ 3#2 := not_and.1 hbad
    obtain ⟨q, he⟩ := exec_next_of_field (s := stateWithPorts c r rest k p) hf
    obtain ⟨q', he'⟩ := exec_next_of_field (s := stateWithPorts c r rest k p') hf
    obtain rfl : q' = q := ((microEffect_of_exec he).of_agreeAt hp).unique (microEffect_of_exec he')
    have htick : q'.afterTick p = q'.afterTick p' := by simp only [Regs.afterTick, ht]
    have hs : step (stateWithPorts c r rest k p) = .next ⟨c, q'.afterTick p, rest, k + 1⟩ := step_of_exec ha hr he
    have hs' : step (stateWithPorts c r rest k p') = .next ⟨c, q'.afterTick p', rest, k + 1⟩ := step_of_exec ha hr' he'
    rw [hs, hs', htick]

end

/-- Settles O31: a refused configuration and a reset step look at no other port, and any other step has the effect of
its micro-operation. -/
theorem portsAreSampledOnlyAtTheirPoints : Obligations.PortsAreSampledOnlyAtTheirPoints := by
  intro c r p p' rest k hrst htick hmode hspeed hdir hstop
  change step (stateWithPorts c r rest k p) = step (stateWithPorts c r rest k p')
  cases ha : c.admitted with
  | false =>
    exact (step_of_not_admitted (s := stateWithPorts c r rest k p) ha).trans
      (step_of_not_admitted (s := stateWithPorts c r rest k p') ha).symm
  | true =>
    cases hr : p.rst with
    | true =>
      exact (step_of_rst (s := stateWithPorts c r rest k p) ha hr).trans
        (step_of_rst (s := stateWithPorts c r rest k p') ha (hrst.symm.trans hr)).symm
    | false => exact step_of_agreeAt ha hr (hrst.symm.trans hr) htick ⟨hmode, hspeed, hdir, hstop⟩

/-! ### A wait without ticks (R186) -/

/-- Settles O50: with no tick counted the exit test of the first step is that of every step, and it fails. -/
theorem withoutTicksTheWaitStays : Obligations.WithoutTicksTheWaitStays := by
  intro s n ha hc hshort hr hs hticks
  have hfail : ¬ s.regs.expiredAfter 0 := by
    rw [Regs.expiredAfter_iff, Nat.add_zero, Nat.mod_eq_of_lt (BitVec.isLt _)]
    omega
  have hnone : ∀ j, j ≤ n → s.ticksIn j = 0 := fun j hj => by
    have hmono := ticksIn_mono s hj
    omega
  have hrun := runs_spinning ha hc n.zero_le (runs_zero_counting s) hr (fun j _ hj => hs j hj)
    (fun j _ hj => by rwa [hnone j hj.le])
  rwa [hticks, Regs.countTicks_zero] at hrun

end Sys2Proof.Machine
